-- ==== Sys2Proof/Word.lean ====
section
/-! DEFINITION. Word.lean: bytes, the 32-bit header word, byte buffers and buffer handles. -/

namespace Sys2Proof

/-- A byte, 0x00 to 0xFF, unsigned (20_memory.md R32). -/
abbrev Byte := BitVec 8

/-- The 32-bit transfer header word; bit 0 is the least significant (00_scope.md R8, 30_encoding.md R49). -/
abbrev Word := BitVec 32

/-- A buffer is a finite sequence of bytes; the offset of a byte is its position (20_memory.md R32, R33).
The empty sequence is a buffer, and no upper bound is set on the length. -/
abbrev Buffer := List Byte

/-- The name by which a request refers to its caller's buffer. The spec speaks of "the request's buffer" and of
one buffer in two operations (R45, R46), so a buffer has an identity; a handle is that identity
(DESIGN CHOICE, notes/assumptions/4.md). -/
abbrev BufId := Nat

end Sys2Proof
end

