-- ==== Sys2Proof/Syntax.lean ====
section
/-! DEFINITION. Syntax.lean: the enums and records of the block's interfaces (10_state.md R20 to R27) and the
operations of spec/opcode_table.json, one constructor of `Instr` per row. -/

namespace Sys2Proof

/-- 00_scope.md R12: TX is host to device (the encoder), RX is device to host (the decoder). -/
inductive Direction where
  | tx | rx
deriving DecidableEq, Repr

/-- 30_encoding.md R58. -/
inductive Port where
  | wlanPort | cpuRxPort | cpuTxPort | hostPort | virtualCpuRxPort | virtualCpuTxPort | discard
deriving DecidableEq, Repr

/-- 30_encoding.md R59. Codes 2 and 3 are not values of the enum. -/
inductive TransferType where
  | packet | command
deriving DecidableEq, Repr

/-- 30_encoding.md R60. -/
inductive QueueSelect where
  | mgmt | hcca | edca | edca2
deriving DecidableEq, Repr

/-- 30_encoding.md R61. -/
inductive EventType where
  | cmdDone | cmdError | cmdRetry | eventPwrRsp | eventWowRsp | eventCarrierDetectRsp | eventDfsDetectRsp
deriving DecidableEq, Repr

/-- The four header layouts (30_encoding.md R50). -/
inductive Layout where
  | txPkt | txCmd | rxPkt | rxEvt
deriving DecidableEq, Repr

/-- The variant `PktTx` of 10_state.md R21. -/
structure TxPktFlags where
  nextValid : Bool
  txBurst   : Bool
  is80211   : Bool
  tso       : Bool
  cso       : Bool
  wiv       : Bool
  qsel      : QueueSelect
deriving DecidableEq, Repr

/-- The variant `CmdTx` of 10_state.md R21. -/
structure TxCmdFlags where
  seq     : BitVec 4
  cmdType : BitVec 7
deriving DecidableEq, Repr

/-- Transmit flags, a tagged sum keyed by transfer type (10_state.md R21). -/
inductive TxFlags where
  | pktTx (f : TxPktFlags)
  | cmdTx (f : TxCmdFlags)
deriving DecidableEq, Repr

/-- The variant `RxPkt` of 10_state.md R23. -/
structure RxPktFlags where
  udpErr    : Bool
  tcpErr    : Bool
  ipErr     : Bool
  is80211   : Bool
  l3l4Done  : Bool
  macHdrLen : BitVec 3
  pcieIntr  : Bool
  qsel      : QueueSelect
deriving DecidableEq, Repr

/-- The variant `RxEvt` of 10_state.md R23. -/
structure RxEvtFlags where
  selfGen  : Bool
  seq      : BitVec 4
  evtType  : EventType
  pcieIntr : Bool
  qsel     : QueueSelect
deriving DecidableEq, Repr

/-- Receive flags, a tagged sum keyed by the decoded TYPE (10_state.md R23). -/
inductive RxFlags where
  | rxPkt (f : RxPktFlags)
  | rxEvt (f : RxEvtFlags)
deriving DecidableEq, Repr

/-- A decoded frame (10_state.md R24). The record's `transfer_type` is `DecodedFrame.transferType` below: the flags
are keyed by it, so it is stored once (notes/assumptions/15.md). -/
structure DecodedFrame where
  port           : Port
  declaredLength : BitVec 14
  flags          : RxFlags
  payloadSlice   : Buffer
  headerWord     : Word
deriving DecidableEq, Repr

/-- The header field a reserved value was found in (10_state.md R25). -/
inductive HeaderField where
  | type | port | eventType
deriving DecidableEq, Repr

/-- Decode errors (10_state.md R25). They are response data, not faults (R26). -/
inductive DecodeError where
  | tooShort (n : Nat)
  | lengthOverflow (declared : BitVec 14) (available : Nat)
  | unrecognized (field : HeaderField) (raw : Nat)
deriving DecidableEq, Repr

/-- The decoder's outcome (10_state.md R25). -/
inductive DecOutcome where
  | ok (f : DecodedFrame)
  | discard (headerWord : Word)
  | err (e : DecodeError)
deriving DecidableEq, Repr

/-- 10_state.md R27. -/
inductive RouteKey where
  | pktKey (port : Port) (qsel : QueueSelect)
  | evtKey (port : Port) (evtType : EventType)
deriving DecidableEq, Repr

/-- 10_state.md R27. -/
inductive DropReason where
  | discardPort (headerWord : Word)
  | decodeFailed (e : DecodeError)
deriving DecidableEq, Repr

/-- The dispatcher's response (10_state.md R27). -/
inductive Route where
  | deliver (key : RouteKey) (frame : DecodedFrame)
  | drop (reason : DropReason)
deriving DecidableEq, Repr

/-- A received packet header that passed the TYPE and PORT checks: every field of RXPKT (30_encoding.md R56),
with the two unassigned bits 15:14 kept (R68). -/
structure RxPktHeader where
  port       : Port
  flags      : RxPktFlags
  unassigned : BitVec 2
  length     : BitVec 14
deriving DecidableEq, Repr

/-- A received event header that passed the TYPE, PORT and EventType checks: every field of RXEVT (30_encoding.md
R57), with the unassigned bit 14 kept (R68). -/
structure RxEvtHeader where
  port       : Port
  flags      : RxEvtFlags
  unassigned : BitVec 1
  length     : BitVec 14
deriving DecidableEq, Repr

/-- Either received header (30_encoding.md R50). -/
inductive RxHeader where
  | pkt (h : RxPktHeader)
  | evt (h : RxEvtHeader)
deriving DecidableEq, Repr

/-- The operations, one constructor per row of spec/opcode_table.json. `b` is the request's buffer. The operands of
a DEC row are the fields its encoding names, with the bits it does not examine kept as a field of their own
(notes/assumptions/16.md). -/
inductive Instr where
  /-- ENC.PKT (40_encoder.md R92). -/
  | encPkt (b : BufId) (port : Port) (flags : TxFlags)
  /-- ENC.CMD (40_encoder.md R93). -/
  | encCmd (b : BufId) (port : Port) (flags : TxFlags)
  /-- ENC.DATA (30_encoding.md R78). -/
  | encData (b : BufId) (flags : TxPktFlags)
  /-- DEC.TOOSHORT (41_decoder.md R97): a buffer of n < 4 bytes. -/
  | decTooShort (b : BufId) (n : Nat)
  /-- DEC.BADTYPE (41_decoder.md R100): TYPE 2 or 3; bits 29:0 not examined. -/
  | decBadType (b : BufId) (type : BitVec 2) (rest : BitVec 30)
  /-- DEC.DISCARD (41_decoder.md R102): PORT 6; bits 26:0 not examined. -/
  | decDiscard (b : BufId) (type : TransferType) (rest : BitVec 27)
  /-- DEC.BADPORT (41_decoder.md R103): PORT 7; bits 26:0 not examined. -/
  | decBadPort (b : BufId) (type : TransferType) (rest : BitVec 27)
  /-- DEC.EVT.BADEVT7 (41_decoder.md R104): EventType 7; bits 26:24 and 19:0 not examined. -/
  | decEvtBadEvt7 (b : BufId) (port : Port) (hi : BitVec 3) (lo : BitVec 20)
  /-- DEC.EVT.BADEVT8 (41_decoder.md R104): EventType 8 + v; bits 26:24 and 19:0 not examined. -/
  | decEvtBadEvt8 (b : BufId) (port : Port) (hi : BitVec 3) (v : BitVec 3) (lo : BitVec 20)
  /-- DEC.OVERFLOW (41_decoder.md R105): the declared length exceeds the `available` bytes, N - 4. -/
  | decOverflow (b : BufId) (h : RxHeader) (available : Nat)
  /-- DEC.PKT (41_decoder.md R96, R107). -/
  | decPkt (b : BufId) (h : RxPktHeader)
  /-- DEC.EVT (41_decoder.md R96, R107). -/
  | decEvt (b : BufId) (h : RxEvtHeader)
  /-- DISPATCH (42_dispatcher.md R115). -/
  | dispatch (o : DecOutcome)
  /-- RECV (30_encoding.md R78). -/
  | recv (b : BufId)
deriving DecidableEq, Repr

/-- The transfer type that a frame's flags are keyed by (10_state.md R23, R24). -/
def RxFlags.transferType : RxFlags → TransferType
  | .rxPkt _ => .packet
  | .rxEvt _ => .command

/-- The frame's `transfer_type` (10_state.md R24). -/
def DecodedFrame.transferType (f : DecodedFrame) : TransferType := f.flags.transferType

/-- The frame's QSel, in both variants (10_state.md R23). -/
def RxFlags.qsel : RxFlags → QueueSelect
  | .rxPkt f => f.qsel
  | .rxEvt f => f.qsel

/-- The frame's PcieIntr, in both variants (10_state.md R23; 60_exceptions.md R133: data only). -/
def RxFlags.pcieIntr : RxFlags → Bool
  | .rxPkt f => f.pcieIntr
  | .rxEvt f => f.pcieIntr

/-- The declared length D of a received header. -/
def RxHeader.length : RxHeader → BitVec 14
  | .pkt h => h.length
  | .evt h => h.length

/-- The port of a received header. -/
def RxHeader.port : RxHeader → Port
  | .pkt h => h.port
  | .evt h => h.port

/-- The receive flags of a received header. -/
def RxHeader.flags : RxHeader → RxFlags
  | .pkt h => .rxPkt h.flags
  | .evt h => .rxEvt h.flags

end Sys2Proof
end

