-- ==== Sys2Proof/WellFormed.lean ====
section
/-! DEFINITION. WellFormed.lean: the operands the spec admits for each row. Where a type already leaves out what the
spec leaves out (a 4-bit sequence number, a recognised EventType), no check is needed. -/

namespace Sys2Proof

/-- The flag variant belongs to the transfer type (10_state.md R21, 40_encoder.md R82). -/
def TxFlags.belongsTo : TxFlags → TransferType → Bool
  | .pktTx _, .packet  => true
  | .cmdTx _, .command => true
  | .pktTx _, .command => false
  | .cmdTx _, .packet  => false

/-- The values the block puts into a decode error (60_exceptions.md R123, "value recorded"). -/
def DecodeError.wellFormed : DecodeError → Bool
  | .tooShort n => n < 4
  | .lengthOverflow d a => a < d.toNat
  | .unrecognized .type raw => raw == 2 || raw == 3
  | .unrecognized .port raw => raw == 7
  | .unrecognized .eventType raw => 7 ≤ raw && raw ≤ 15

/-- A frame has a port other than Discard and exactly D payload bytes (10_state.md R24, 41_decoder.md R107, R110). -/
def DecodedFrame.wellFormed (f : DecodedFrame) : Bool :=
  f.port != .discard && f.payloadSlice.length == f.declaredLength.toNat

/-- An outcome the decoder can give (10_state.md R25); a Discard word has TYPE 0 or 1 and PORT 6 (41_decoder.md R102). -/
def DecOutcome.wellFormed : DecOutcome → Bool
  | .ok f => f.wellFormed
  | .discard h => !h.getLsbD 31 && h.extractLsb' 27 3 == 6
  | .err e => e.wellFormed

/-- The operands satisfy the condition of the row in spec/opcode_table.json. -/
def Instr.wellFormed : Instr → Bool
  | .encPkt _ _ flags => flags.belongsTo .packet
  | .encCmd _ _ flags => flags.belongsTo .command
  | .encData _ _ => true
  | .decTooShort _ n => n < 4
  | .decBadType _ type _ => type == 2 || type == 3
  | .decDiscard _ _ _ => true
  | .decBadPort _ _ _ => true
  | .decEvtBadEvt7 _ port _ _ => port != .discard
  | .decEvtBadEvt8 _ port _ _ _ => port != .discard
  | .decOverflow _ h available => h.port != .discard && available < h.length.toNat
  | .decPkt _ h => h.port != .discard
  | .decEvt _ h => h.port != .discard
  | .dispatch o => o.wellFormed
  | .recv _ => true

end Sys2Proof
end

