-- ==== Sys2Proof/Decode.lean ====
section
/-! DEFINITION. Decode.lean: bit fields, byte order, the enum codes, the four header layouts in both directions
(30_encoding.md), the decoder from bytes to operations and, after it, the encoder from operations to bytes. -/

namespace Sys2Proof

/-! ### Bits and bytes -/

/-- `w[hi:lo]`, unsigned (30_encoding.md R52). -/
def field (w : Word) (hi lo : Nat) : BitVec (hi + 1 - lo) := w.extractLsb' lo (hi + 1 - lo)

/-- `ins(v, lo+n-1, lo)`: the n-bit value v at bit lo (30_encoding.md R53). The mask of R53 is the width of v. -/
def ins {n : Nat} (v : BitVec n) (lo : Nat) : Word := v.setWidth 32 <<< lo

/-- A 1-bit flag field holds 1 when its flag is true (30_encoding.md R62). -/
def insFlag (b : Bool) (i : Nat) : Word := ins (BitVec.ofBool b) i

/-- `LE32(w)` (00_scope.md R10, 20_memory.md R35). -/
def le32 (w : Word) : Buffer := [field w 7 0, field w 15 8, field w 23 16, field w 31 24]

/-- `fromLE32(b0, b1, b2, b3)` (00_scope.md R10, 20_memory.md R35). -/
def fromLe32 (b0 b1 b2 b3 : Byte) : Word := ins b0 0 ||| ins b1 8 ||| ins b2 16 ||| ins b3 24

/-- `zeros(k)` (00_scope.md R9). -/
def zeros (k : Nat) : Buffer := List.replicate k 0

/-! ### Enum codes -/

/-- 30_encoding.md R58 (the codes 1 to 6 are the spec's decision D3, notes/assumptions/12.md). -/
def portCode : Port → BitVec 3
  | .wlanPort => 0
  | .cpuRxPort => 1
  | .cpuTxPort => 2
  | .hostPort => 3
  | .virtualCpuRxPort => 4
  | .virtualCpuTxPort => 5
  | .discard => 6

/-- 30_encoding.md R58; code 7 is reserved. -/
def portOf? (p : BitVec 3) : Option Port :=
  match p.toNat with
  | 0 => some .wlanPort
  | 1 => some .cpuRxPort
  | 2 => some .cpuTxPort
  | 3 => some .hostPort
  | 4 => some .virtualCpuRxPort
  | 5 => some .virtualCpuTxPort
  | 6 => some .discard
  | _ => none

/-- 30_encoding.md R59. -/
def typeCode : TransferType → BitVec 2
  | .packet => 0
  | .command => 1

/-- 30_encoding.md R59; codes 2 and 3 are reserved. -/
def typeOf? (t : BitVec 2) : Option TransferType :=
  match t.toNat with
  | 0 => some .packet
  | 1 => some .command
  | _ => none

/-- 30_encoding.md R60 (decision D4, notes/assumptions/12.md). -/
def qselCode : QueueSelect → BitVec 2
  | .mgmt => 0
  | .hcca => 1
  | .edca => 2
  | .edca2 => 3

/-- 30_encoding.md R60: all four codes are values. -/
def qselOf (q : BitVec 2) : QueueSelect :=
  match q.toNat with
  | 0 => .mgmt
  | 1 => .hcca
  | 2 => .edca
  | _ => .edca2

/-- 30_encoding.md R61 (decision D5, notes/assumptions/12.md). -/
def eventCode : EventType → BitVec 4
  | .cmdDone => 0
  | .cmdError => 1
  | .cmdRetry => 2
  | .eventPwrRsp => 3
  | .eventWowRsp => 4
  | .eventCarrierDetectRsp => 5
  | .eventDfsDetectRsp => 6

/-- 30_encoding.md R61; codes 7 to 15 are reserved. -/
def eventOf? (v : BitVec 4) : Option EventType :=
  match v.toNat with
  | 0 => some .cmdDone
  | 1 => some .cmdError
  | 2 => some .cmdRetry
  | 3 => some .eventPwrRsp
  | 4 => some .eventWowRsp
  | 5 => some .eventCarrierDetectRsp
  | 6 => some .eventDfsDetectRsp
  | _ => none

/-! ### The packet-type field dispatch -/

/-- The layout is a function of the direction and of TYPE (30_encoding.md R50). -/
def layoutOf? (dir : Direction) (type : BitVec 2) : Option Layout :=
  match dir, typeOf? type with
  | .tx, some .packet  => some .txPkt
  | .tx, some .command => some .txCmd
  | .rx, some .packet  => some .rxPkt
  | .rx, some .command => some .rxEvt
  | _, none => none

/-! ### Reading a received header -/

/-- The RXPKT flags of a header word (30_encoding.md R77, 41_decoder.md R106). -/
def rxPktFlagsOf (h : Word) : RxPktFlags where
  udpErr    := h.getLsbD 16
  tcpErr    := h.getLsbD 17
  ipErr     := h.getLsbD 18
  is80211   := h.getLsbD 19
  l3l4Done  := h.getLsbD 20
  macHdrLen := field h 23 21
  pcieIntr  := h.getLsbD 24
  qsel      := qselOf (field h 26 25)

/-- The RXEVT flags of a header word whose EventType field was recognised as `e` (30_encoding.md R77,
41_decoder.md R106). -/
def rxEvtFlagsOf (h : Word) (e : EventType) : RxEvtFlags where
  selfGen  := h.getLsbD 15
  seq      := field h 19 16
  evtType  := e
  pcieIntr := h.getLsbD 24
  qsel     := qselOf (field h 26 25)

/-- The row of a packet header whose port is `p` (41_decoder.md R105, R107). -/
def decodeRxPkt (b : BufId) (p : Port) (h : Word) (available : Nat) : Instr :=
  let hdr : RxPktHeader :=
    { port := p, flags := rxPktFlagsOf h, unassigned := field h 15 14, length := field h 13 0 }
  if available < hdr.length.toNat then .decOverflow b (.pkt hdr) available else .decPkt b hdr

/-- The row of an event header whose port is `p` (41_decoder.md R104, R105, R107). -/
def decodeRxEvt (b : BufId) (p : Port) (h : Word) (available : Nat) : Instr :=
  match eventOf? (field h 23 20) with
  | none =>
    if h.getLsbD 23 then .decEvtBadEvt8 b p (field h 26 24) (field h 22 20) (field h 19 0)
    else .decEvtBadEvt7 b p (field h 26 24) (field h 19 0)
  | some e =>
    let hdr : RxEvtHeader :=
      { port := p, flags := rxEvtFlagsOf h e, unassigned := field h 14 14, length := field h 13 0 }
    if available < hdr.length.toNat then .decOverflow b (.evt hdr) available else .decEvt b hdr

/-- The row of a received header word, with `available` = N - 4 bytes behind it: TYPE first (41_decoder.md R99, R100),
then PORT (R101 to R103), then the sub-layout. -/
def decodeRxWord (b : BufId) (h : Word) (available : Nat) : Instr :=
  match typeOf? (field h 31 30), portOf? (field h 29 27) with
  | none, _ => .decBadType b (field h 31 30) (field h 29 0)
  | some t, some .discard => .decDiscard b t (field h 26 0)
  | some t, none => .decBadPort b t (field h 26 0)
  | some .packet, some p => decodeRxPkt b p h available
  | some .command, some p => decodeRxEvt b p h available

/-- The row of spec/opcode_table.json that a received buffer falls under. It is total: every buffer of every length
has one row (41_decoder.md R96, R114). -/
def decodeRx (b : BufId) : Buffer → Instr
  | b0 :: b1 :: b2 :: b3 :: rest => decodeRxWord b (fromLe32 b0 b1 b2 b3) rest.length
  | short => .decTooShort b short.length

/-! ### Reading a transmit header -/

/-- Why four bytes are no TX header word the encoder can produce (30_encoding.md R73, R65). That there is such a decoder
is the model's choice (notes/assumptions/24.md). -/
inductive DecodeReject where
  /-- fewer than 4 bytes -/
  | noHeader
  /-- TYPE 2 or 3 (R59) -/
  | reservedType
  /-- PORT 7 (R58) -/
  | reservedPort
  /-- one of bits 18, 22 and 23 of a TXPKT word is 1 (R67) -/
  | reservedBit
  /-- the Length is not a multiple of 4 (R65) -/
  | unroundedLength
deriving DecidableEq, Repr

/-- The TXPKT flags of a header word (30_encoding.md R54). -/
def txPktFlagsOf (h : Word) : TxPktFlags where
  nextValid := h.getLsbD 16
  txBurst   := h.getLsbD 17
  is80211   := h.getLsbD 19
  tso       := h.getLsbD 20
  cso       := h.getLsbD 21
  wiv       := h.getLsbD 24
  qsel      := qselOf (field h 26 25)

/-- The TXCMD flags of a header word (30_encoding.md R55). -/
def txCmdFlagsOf (h : Word) : TxCmdFlags where
  seq     := field h 19 16
  cmdType := field h 26 20

/-- The operation that writes a TX header word (30_encoding.md R76 read backwards); rejects, by name, reserved TYPE and
PORT codes, set reserved bits (R73) and a Length that is no multiple of 4. The size policy is not looked at: a command
word whose Length only a payload beyond CMD_MAX_LEN would get is read too (notes/assumptions/24.md). -/
def decodeTxWord (b : BufId) (h : Word) : Except DecodeReject Instr :=
  match layoutOf? .tx (field h 31 30), portOf? (field h 29 27) with
  | none, _ => .error .reservedType
  | some _, none => .error .reservedPort
  | some l, some p =>
    if (field h 1 0) ≠ 0 then .error .unroundedLength
    else if l = .txCmd then .ok (.encCmd b p (.cmdTx (txCmdFlagsOf h)))
    else if h.getLsbD 18 || h.getLsbD 22 || h.getLsbD 23 then .error .reservedBit
    else .ok (.encPkt b p (.pktTx (txPktFlagsOf h)))

/-- Decoding is total on any bytes, in either direction (30_encoding.md R50). -/
def decode (dir : Direction) (b : BufId) (bytes : Buffer) : Except DecodeReject Instr :=
  match dir, bytes with
  | .rx, bs => .ok (decodeRx b bs)
  | .tx, b0 :: b1 :: b2 :: b3 :: _ => decodeTxWord b (fromLe32 b0 b1 b2 b3)
  | .tx, _ => .error .noHeader

/-! ### The encoder: words of operations -/

/-- The TXPKT header word with Length `a` (30_encoding.md R54, R76). -/
def txPktWord (port : Port) (f : TxPktFlags) (a : BitVec 16) : Word :=
  ins a 0 ||| insFlag f.nextValid 16 ||| insFlag f.txBurst 17 ||| insFlag f.is80211 19
    ||| insFlag f.tso 20 ||| insFlag f.cso 21 ||| insFlag f.wiv 24
    ||| ins (qselCode f.qsel) 25 ||| ins (portCode port) 27 ||| ins (typeCode .packet) 30

/-- The TXCMD header word with Length `a` (30_encoding.md R55, R76). -/
def txCmdWord (port : Port) (f : TxCmdFlags) (a : BitVec 16) : Word :=
  ins a 0 ||| ins f.seq 16 ||| ins f.cmdType 20 ||| ins (portCode port) 27 ||| ins (typeCode .command) 30

/-- The RXPKT header word (30_encoding.md R56, R77 read backwards). -/
def rxPktWord (h : RxPktHeader) : Word :=
  ins h.length 0 ||| ins h.unassigned 14 ||| insFlag h.flags.udpErr 16 ||| insFlag h.flags.tcpErr 17
    ||| insFlag h.flags.ipErr 18 ||| insFlag h.flags.is80211 19 ||| insFlag h.flags.l3l4Done 20
    ||| ins h.flags.macHdrLen 21 ||| insFlag h.flags.pcieIntr 24 ||| ins (qselCode h.flags.qsel) 25
    ||| ins (portCode h.port) 27 ||| ins (typeCode .packet) 30

/-- The RXEVT header word (30_encoding.md R57, R77 read backwards). -/
def rxEvtWord (h : RxEvtHeader) : Word :=
  ins h.length 0 ||| ins h.unassigned 14 ||| insFlag h.flags.selfGen 15 ||| ins h.flags.seq 16
    ||| ins (eventCode h.flags.evtType) 20 ||| insFlag h.flags.pcieIntr 24
    ||| ins (qselCode h.flags.qsel) 25 ||| ins (portCode h.port) 27 ||| ins (typeCode .command) 30

/-- The header word of a received header. -/
def RxHeader.word : RxHeader → Word
  | .pkt h => rxPktWord h
  | .evt h => rxEvtWord h

/-- The header word of a DEC.BADTYPE row. -/
def badTypeWord (type : BitVec 2) (rest : BitVec 30) : Word := ins rest 0 ||| ins type 30

/-- The header word of a DEC.DISCARD row (PORT 6) or, with port code 7, of a DEC.BADPORT row. -/
def portWord (type : TransferType) (port : BitVec 3) (rest : BitVec 27) : Word :=
  ins rest 0 ||| ins port 27 ||| ins (typeCode type) 30

/-- The header word of an RXEVT row whose EventType code is `v`. -/
def evtCodeWord (port : Port) (hi : BitVec 3) (v : BitVec 4) (lo : BitVec 20) : Word :=
  ins lo 0 ||| ins v 20 ||| ins hi 24 ||| ins (portCode port) 27 ||| ins (typeCode .command) 30

/-- The reserved EventType code 8 + v of a DEC.EVT.BADEVT8 row. -/
def badEvt8Code (v : BitVec 3) : BitVec 4 := v.setWidth 4 ||| 8

/-- The header word of an operation; `a` is the Length of a TX word and is not used on RX. None where the row has no
word of its own: DEC.TOOSHORT (no header is read), DISPATCH (42_dispatcher.md R115) and RECV, and an ENC whose flags
belong to the other type (40_encoder.md R82). -/
def Instr.word? (i : Instr) (a : BitVec 16) : Option Word :=
  match i with
  | .encPkt _ port (.pktTx f) => some (txPktWord port f a)
  | .encPkt _ _ (.cmdTx _) => none
  | .encCmd _ port (.cmdTx f) => some (txCmdWord port f a)
  | .encCmd _ _ (.pktTx _) => none
  | .encData _ f => some (txPktWord .wlanPort f a)
  | .decTooShort _ _ => none
  | .decBadType _ type rest => some (badTypeWord type rest)
  | .decDiscard _ type rest => some (portWord type 6 rest)
  | .decBadPort _ type rest => some (portWord type 7 rest)
  | .decEvtBadEvt7 _ port hi lo => some (evtCodeWord port hi 7 lo)
  | .decEvtBadEvt8 _ port hi v lo => some (evtCodeWord port hi (badEvt8Code v) lo)
  | .decOverflow _ h _ => some h.word
  | .decPkt _ h => some (rxPktWord h)
  | .decEvt _ h => some (rxEvtWord h)
  | .dispatch _ => none
  | .recv _ => none

/-- How many bytes stand behind the header word in the encoding of a DEC row: the D payload bytes of a frame, the
bytes that are there of an overflowing one, none elsewhere. -/
def Instr.tail : Instr → Nat
  | .decOverflow _ _ available => available
  | .decPkt _ h => h.length.toNat
  | .decEvt _ h => h.length.toNat
  | _ => 0

/-- The bytes of an operation: its header word, little-endian, and zeros where payload bytes stand
(notes/assumptions/16.md). DEC.TOOSHORT is n bytes. DISPATCH and RECV have no bytes of their own. -/
def encode (i : Instr) (a : BitVec 16) : Option Buffer :=
  match i with
  | .decTooShort _ n => some (zeros n)
  | i => (i.word? a).map fun w => le32 w ++ zeros i.tail

/-- The operation an operation's words decode to: ENC.DATA is another spelling of ENC.PKT with port WlanPort
(30_encoding.md R78). -/
def Instr.core : Instr → Instr
  | .encData b f => .encPkt b .wlanPort (.pktTx f)
  | i => i

/-- The direction in which an operation's words are read; DISPATCH and RECV stand on the receive side
(spec/opcode_table.json, "direction"). -/
def Instr.direction : Instr → Direction
  | .encPkt .. => .tx
  | .encCmd .. => .tx
  | .encData .. => .tx
  | .decTooShort .. => .rx
  | .decBadType .. => .rx
  | .decDiscard .. => .rx
  | .decBadPort .. => .rx
  | .decEvtBadEvt7 .. => .rx
  | .decEvtBadEvt8 .. => .rx
  | .decOverflow .. => .rx
  | .decPkt .. => .rx
  | .decEvt .. => .rx
  | .dispatch .. => .rx
  | .recv .. => .rx

/-- The buffer an operation works on; DISPATCH has none. -/
def Instr.buf? : Instr → Option BufId
  | .encPkt b _ _ => some b
  | .encCmd b _ _ => some b
  | .encData b _ => some b
  | .decTooShort b _ => some b
  | .decBadType b _ _ => some b
  | .decDiscard b _ _ => some b
  | .decBadPort b _ _ => some b
  | .decEvtBadEvt7 b _ _ _ => some b
  | .decEvtBadEvt8 b _ _ _ _ => some b
  | .decOverflow b _ _ => some b
  | .decPkt b _ => some b
  | .decEvt b _ => some b
  | .dispatch _ => none
  | .recv b => some b

/-! ### The opcode table's words -/

/-- The n bytes of v, least significant first. -/
def leBytes : Nat → Nat → Buffer
  | 0, _ => []
  | n + 1, v => BitVec.ofNat 8 v :: leBytes n (v / 256)

/-- A table word as the received buffer it stands in: the word's bytes, little-endian (20_memory.md R35), with zeros
for the rest of the header word and of the D payload bytes its Length declares. A table word carries no direction, and
it is read as a received one (30_encoding.md R71, notes/assumptions/3.md). -/
def tableBytes (nbits w : Nat) : Buffer :=
  let v := w % 2 ^ nbits
  let bytes := leBytes (max 4 ((nbits + 7) / 8)) v
  bytes ++ zeros (4 + v % 2 ^ 14 - bytes.length)

/-- The operation the decoder reads from a table word, in the buffer 0. -/
def decodeTableWord (nbits w : Nat) : Option Instr := some (decodeRx 0 (tableBytes nbits w))

end Sys2Proof
end

