-- ==== Sys2Proof/Config.lean ====
section
/-! DEFINITION. Config.lean: the parameters that are fixed when the block is built (00_scope.md R6, R7) and the free
values. An `opaque` constant has no body: no proof can use a value of it. -/

namespace Sys2Proof

/-- TX_MAX_LEN, the largest encodable payload (00_scope.md R6; 90_conflicts.md C2). -/
abbrev Config.txMaxLen : Nat := 65532

/-- CMD_MAX_LEN, the largest command payload: OPEN, a natural at most 65532 (00_scope.md R6,
notes/assumptions/10.md). -/
opaque Config.cmdMaxLen : Fin 65533

/-- Handler, the route-key-to-consumer binding: OPEN and external (00_scope.md R6, 42_dispatcher.md R120). A consumer
is named by a number (notes/assumptions/11.md). -/
opaque Config.handler : RouteKey → Nat

/-- FREE VALUE: the contents of the buffer of an operation that reset abandoned are unspecified (70_reset_and_hazards.md
R139). `State.freeCount` gives each abandoned buffer a number of its own (notes/assumptions/8.md). -/
opaque Config.freeBuffer : Nat → Buffer

end Sys2Proof
end

