-- ==== Sys2Proof/Machine/State.lean ====
section
/-! DEFINITION. Machine/State.lean: the state, the ways a step can stop, and the state after reset.

The block holds no state between operations (10_state.md R15 to R19). State is what stands around it: the callers'
buffers (R32, R45), the requests in progress (R30), what the outside does next, and the responses given (R20). -/

namespace Sys2Proof.Machine

/-- A request at one of the block's interfaces (10_state.md R20), or a pseudo-operation (30_encoding.md R78). The
encode request names its transfer type beside its flags, as the source's `encode(buffer, port, transfer_type,
type_flags)` does, so a mismatch can be asked for and is refused (40_encoder.md R82, R94). -/
inductive Request where
  | encode (b : BufId) (port : Port) (ttype : TransferType) (flags : TxFlags)
  | encData (b : BufId) (flags : TxPktFlags)
  | decode (b : BufId)
  | dispatch (o : DecOutcome)
  | recv (b : BufId)
deriving DecidableEq, Repr

/-- A response of one of the three interfaces (10_state.md R20). -/
inductive Response where
  | enc (out : Buffer)
  | dec (o : DecOutcome)
  | route (r : Route)
deriving DecidableEq, Repr

/-- What the outside does next (notes/assumptions/7.md). -/
inductive Input where
  /-- A request is made and served, in one atomic step (10_state.md R17, R20; 20_memory.md R41). -/
  | request (r : Request)
  /-- A concurrent request begins: if it is not refused (when it is checked: notes/assumptions/26.md), it now owns its
  buffer and has no response yet (10_state.md R29, R30). -/
  | start (r : Request)
  /-- The atomic step of the k-th oldest request in progress; every order is possible (10_state.md R30). -/
  | complete (k : Nat)
  /-- The owner of buffer b, the caller or the transport, gives it these bytes (00_scope.md R4, 10_state.md R29). -/
  | place (b : BufId) (bytes : Buffer)
  /-- Reset is asserted (70_reset_and_hazards.md R139). -/
  | reset
deriving DecidableEq, Repr

/-- The buffers by handle, in canonical form: handles strictly rising, no entry that holds the empty buffer. A handle
that is not listed is the empty buffer (notes/assumptions/4.md). -/
abbrev Memory := List (BufId × Buffer)

/-- The canonical form of `Memory`. -/
abbrev Memory.wf (m : Memory) : Prop := m.Pairwise (fun x y => x.1 < y.1) ∧ ∀ e ∈ m, e.2 ≠ []

/-- Why a step stops with a fault. -/
inductive Fault where
  /-- An access outside the buffer (20_memory.md R34: MemRead is defined only inside it). Raised by a DEC.PKT or DEC.EVT
  whose D payload bytes are not there, which the decoder never selects. Safe: the model stops. -/
  | outOfBounds
deriving DecidableEq, Repr

/-- Why a request is refused (60_exceptions.md R123, R126). All are safe: the model gives the request no response. -/
inductive Refusal where
  /-- An operation with no meaning in this model, by its mnemonic. Raised by `exec` alone; no arm is left that does. -/
  | notModelled (mnemonic : String)
  /-- ENC.PKT or ENC.CMD whose flag variant does not belong to the transfer type (40_encoder.md R82). -/
  | configurationError
  /-- ENC.PKT, ENC.CMD or ENC.DATA with a payload beyond the size bound (40_encoder.md R81). -/
  | oversize
  /-- Any operation on a buffer that another operation in progress owns (20_memory.md R45). -/
  | bufferBusy
deriving DecidableEq, Repr

/-- The state. -/
structure State where
  /-- what the outside does next, first first -/
  inputs     : List Input
  /-- the buffers -/
  buffers    : Memory
  /-- requests begun and not answered, oldest first -/
  inProgress : List Request
  /-- the responses given, newest first -/
  responses  : List Response
  /-- how many free buffer contents were taken; the model's own (notes/assumptions/8.md) -/
  freeCount  : Nat
deriving DecidableEq, Repr

/-- The state after reset: the block has no state and no element has a reset value (10_state.md R31); nothing is
waiting, in progress or answered, and every buffer is empty (DESIGN CHOICE, notes/assumptions/1.md). -/
def State.reset : State where
  inputs     := []
  buffers    := []
  inProgress := []
  responses  := []
  freeCount  := 0

end Sys2Proof.Machine
end

