-- ==== Sys2Proof/Machine/Ops.lean ====
section
/-! DEFINITION. Machine/Ops.lean: the named operations over buffers, requests and responses. The block has no trap and
no return from one (60_exceptions.md R130, R131), so there is no exception entry here; what it has instead is the
refusal of a request (R126) and reset (70_reset_and_hazards.md R139). -/

namespace Sys2Proof.Machine

/-- The outcome of a step of this machine. -/
abbrev Result := Host.Outcome State Fault Refusal

/-! ### One buffer -/

/-- `MemRead(addr, n)`, defined only when `addr + n ≤ len(buf)` (20_memory.md R34). -/
def memRead (buf : Buffer) (addr n : Nat) : Option Buffer :=
  if addr + n ≤ buf.length then some ((buf.drop addr).take n) else none

/-- `MemWrite(addr, n, v)`, n = len(v), under the same condition (20_memory.md R34). No rule issues one. -/
def memWrite (buf : Buffer) (addr : Nat) (v : Buffer) : Option Buffer :=
  if addr + v.length ≤ buf.length then some (buf.take addr ++ v ++ buf.drop (addr + v.length)) else none

/-- The collaborator's grow-at-front (20_memory.md R36). -/
def prepend (buf v : Buffer) : Buffer := v ++ buf

/-- The collaborator's grow-at-back (20_memory.md R36). -/
def append (buf v : Buffer) : Buffer := buf ++ v

/-! ### Lengths -/

/-- `round_up(x, n)`, the least multiple of n that is ≥ x, on naturals (40_encoder.md R79). -/
def roundUp (x n : Nat) : Nat := x + (n - x % n) % n

/-- P, the number of zero bytes the encoder appends to a payload of `l` bytes (40_encoder.md R83). -/
def padLen (l : Nat) : Nat := roundUp (l + 4) 4 - (l + 4) + 4

/-- A, the Length the encoder writes for a payload of `l` bytes (40_encoder.md R80), in its 16-bit field. -/
def alignedLen (l : Nat) : BitVec 16 := BitVec.ofNat 16 (roundUp l 4)

/-! ### The buffers by handle -/

/-- The buffer a handle names; the empty buffer where none is listed. -/
def Memory.get : Memory → BufId → Buffer
  | [], _ => []
  | (c, buf) :: m, b => if c = b then buf else Memory.get m b

/-- The entry of a buffer, none for the empty one. -/
def Memory.entry (b : BufId) (buf : Buffer) : Memory :=
  if buf.isEmpty then [] else [(b, buf)]

/-- The buffers with handle b naming `buf`. -/
def Memory.set : Memory → BufId → Buffer → Memory
  | [], b, buf => Memory.entry b buf
  | (c, old) :: m, b, buf =>
    if b < c then Memory.entry b buf ++ (c, old) :: m
    else if b = c then Memory.entry b buf ++ m
    else (c, old) :: Memory.set m b buf

/-- One byte of a buffer; none outside it (20_memory.md R33: the offsets 0 to len-1 are the only addresses). -/
def Memory.readByte (m : Memory) (b : BufId) (offset : Nat) : Option Byte := (m.get b)[offset]?

/-- The buffer a handle names in a state. -/
def State.buffer (s : State) (b : BufId) : Buffer := s.buffers.get b

/-- One byte of a buffer in a state. -/
def State.readByte (s : State) (b : BufId) (offset : Nat) : Option Byte := s.buffers.readByte b offset

/-- The state with handle b naming `buf`. -/
def State.setBuffer (s : State) (b : BufId) (buf : Buffer) : State := { s with buffers := s.buffers.set b buf }

/-! ### Requests and responses -/

/-- The buffer a request owns while it is in progress; a dispatch request has none (10_state.md R20). -/
def Request.buf? : Request → Option BufId
  | .encode b _ _ _ => some b
  | .encData b _ => some b
  | .decode b => some b
  | .dispatch _ => none
  | .recv b => some b

/-- The buffer is in an operation in progress (20_memory.md R45). -/
def State.busy (s : State) (b : BufId) : Bool := s.inProgress.any fun r => r.buf? == some b

/-- The request's buffer is in another operation in progress (20_memory.md R45). -/
def State.busyFor (s : State) (r : Request) : Bool :=
  match r.buf? with
  | some b => s.busy b
  | none => false

/-- A response is given (10_state.md R20). -/
def State.respond (s : State) (r : Response) : State := { s with responses := r :: s.responses }

/-- An operation on buffer b: refused where another operation owns b (60_exceptions.md R126; R129: this check comes
first), else `k` of the buffer's bytes. -/
def State.owned (s : State) (b : BufId) (k : Buffer → Result) : Result :=
  if s.busy b then .refused .bufferBusy else k (s.buffer b)

/-- The operation a request asks for. Encode selects by the request's transfer type (30_encoding.md R50, 40_encoder.md
R94); decode selects by the received buffer (41_decoder.md R96, R99). -/
def State.fetch (s : State) : Request → Instr
  | .encode b port .packet flags => .encPkt b port flags
  | .encode b port .command flags => .encCmd b port flags
  | .encData b flags => .encData b flags
  | .decode b => decodeRx b (s.buffer b)
  | .dispatch o => .dispatch o
  | .recv b => .recv b

/-- A handle that no listed buffer and no request in progress has. -/
def State.freshBuf (s : State) : BufId :=
  max (s.buffers.foldr (fun e n => max n (e.1 + 1)) 0)
    (s.inProgress.foldr (fun r n => max n ((r.buf?.map (· + 1)).getD 0)) 0)

/-! ### Inputs other than a request -/

/-- The owner of a buffer gives it bytes; refused while an operation owns it (20_memory.md R45,
notes/assumptions/21.md). -/
def State.place (s : State) (b : BufId) (bytes : Buffer) : Result :=
  if s.busy b then .refused .bufferBusy else .next (s.setBuffer b bytes)

/-- The buffer of an abandoned request holds unspecified bytes (70_reset_and_hazards.md R139): a free value. -/
def State.spoil (s : State) (r : Request) : State :=
  match r.buf? with
  | some b => { s.setBuffer b (Config.freeBuffer s.freeCount) with freeCount := s.freeCount + 1 }
  | none => s

/-- Reset: every request in progress is abandoned with no response and its buffer's contents are free; nothing else
changes (70_reset_and_hazards.md R139, 10_state.md R31). -/
def State.abandon (s : State) : State := { s.inProgress.foldl State.spoil s with inProgress := [] }

end Sys2Proof.Machine
end

