-- ==== Sys2Proof/Machine/Operands.lean ====
section
/-! DEFINITION. Machine/Operands.lean: the operand checks of the encode request, and the shared encode steps. -/

namespace Sys2Proof.Machine

/-- `admit_size(L, ttype)` (40_encoder.md R81). -/
def admitSize (l : Nat) (ttype : TransferType) : Bool :=
  roundUp l 4 ≤ 0xFFFF && (ttype == .packet || l ≤ Config.cmdMaxLen.val)

/-- `ENC_common(payload, H)`: the grown buffer (40_encoder.md R85). -/
def encCommon (payload : Buffer) (h : Word) : Buffer :=
  let buf := prepend payload (le32 h)
  append buf (zeros (roundUp buf.length 4 - buf.length + 4))

/-- An admitted encode request: the request's buffer is grown in place and is the response's `out` (40_encoder.md R85,
20_memory.md R37, R46; notes/assumptions/6.md). -/
def State.answerEnc (s : State) (b : BufId) (payload : Buffer) (h : Word) : State :=
  (s.setBuffer b (encCommon payload h)).respond (.enc (encCommon payload h))

end Sys2Proof.Machine
end

