-- ==== Sys2Proof/Machine/Flags.lean ====
section
/-! DEFINITION. Machine/Flags.lean: the block has no condition flags (10_state.md R19, 40_encoder.md R91). Its flags are
the tagged sums of requests and responses: the variant check of an encode request, and the frame that the flags of a
received header go into. -/

namespace Sys2Proof.Machine

/-- The flag variant of a packet request (40_encoder.md R82): any other is refused. -/
def withPktFlags (flags : TxFlags) (k : TxPktFlags → Result) : Result :=
  match flags with
  | .pktTx f => k f
  | .cmdTx _ => .refused .configurationError

/-- The flag variant of a command request (40_encoder.md R82): any other is refused. -/
def withCmdFlags (flags : TxFlags) (k : TxCmdFlags → Result) : Result :=
  match flags with
  | .cmdTx f => k f
  | .pktTx _ => .refused .configurationError

/-- The frame of a received header and its D payload bytes (41_decoder.md R106, R107). -/
def frameOf (h : RxHeader) (slice : Buffer) : DecodedFrame where
  port           := h.port
  declaredLength := h.length
  flags          := h.flags
  payloadSlice   := slice
  headerWord     := h.word

end Sys2Proof.Machine
end

