-- ==== Sys2Proof/Machine/Decoder.lean ====
section
/-! DEFINITION. Machine/Decoder.lean: the Header Decoder (41_decoder.md). `dec` is the operation DEC as R96 writes it,
from the buffer's bytes to the outcome. The nine `exec` definitions are the rows of spec/opcode_table.json: what the
decoder answers once `decodeRx` has found which row a buffer falls under. -/

namespace Sys2Proof.Machine

/-! ### DEC as R96 writes it -/

/-- `port_of(p)` for the codes 0 to 5 that reach it (41_decoder.md R107); the checks before it leave no other. -/
def portOf (p : BitVec 3) : Port := (portOf? p).getD .discard

/-- The recognised EventType of a header word (41_decoder.md R106); the check before it leaves no other code. -/
def eventOf (v : BitVec 4) : EventType := (eventOf? v).getD .cmdDone

/-- The flags of a header word of TYPE t (41_decoder.md R106). -/
def rxFlagsOf (t : BitVec 2) (h : Word) : RxFlags :=
  if t = 0 then .rxPkt (rxPktFlagsOf h) else .rxEvt (rxEvtFlagsOf h (eventOf (field h 23 20)))

/-- DEC after the header read: the checks in R96's order, on the header word H and the buffer. -/
def decWord (h : Word) (buf : Buffer) : DecOutcome :=
  let t : BitVec 2 := field h 31 30
  let p : BitVec 3 := field h 29 27
  let v : BitVec 4 := field h 23 20
  let d : BitVec 14 := field h 13 0
  if t = 2 ∨ t = 3 then .err (.unrecognized .type t.toNat)
  else if p = 6 then .discard h
  else if p = 7 then .err (.unrecognized .port 7)
  else if t = 1 ∧ 7 ≤ v.toNat then .err (.unrecognized .eventType v.toNat)
  else
    match memRead buf 4 d.toNat with
    | none => .err (.lengthOverflow d (buf.length - 4))
    | some slice =>
      .ok { port := portOf p, declaredLength := d, flags := rxFlagsOf t h, payloadSlice := slice, headerWord := h }

/-- DEC (41_decoder.md R96). `MemRead(0, 4)` is defined exactly when N ≥ 4 (R97, R98). -/
def dec (buf : Buffer) : DecOutcome :=
  match memRead buf 0 4 with
  | some [b0, b1, b2, b3] => decWord (fromLe32 b0 b1 b2 b3) buf
  | _ => .err (.tooShort buf.length)

/-! ### The rows -/

/-- A decode outcome that needs no byte of the buffer is given (10_state.md R25, R26; 20_memory.md R38). -/
def answerDec (b : BufId) (o : DecOutcome) (s : State) : Result :=
  s.owned b fun _ => .next (s.respond (.dec o))

/-- A frame is given: its D payload bytes are `MemRead(4, D)` (41_decoder.md R107, 20_memory.md R44). -/
def answerFrame (b : BufId) (h : RxHeader) (s : State) : Result :=
  s.owned b fun buf =>
    match memRead buf 4 h.length.toNat with
    | none => .fault .outOfBounds
    | some slice => .next (s.respond (.dec (.ok (frameOf h slice))))

/-- DEC.TOOSHORT (41_decoder.md R97). -/
def execDecTooShort (b : BufId) (n : Nat) (s : State) : Result := answerDec b (.err (.tooShort n)) s

/-- DEC.BADTYPE (41_decoder.md R100). -/
def execDecBadType (b : BufId) (type : BitVec 2) (_rest : BitVec 30) (s : State) : Result :=
  answerDec b (.err (.unrecognized .type type.toNat)) s

/-- DEC.DISCARD (41_decoder.md R102). -/
def execDecDiscard (b : BufId) (type : TransferType) (rest : BitVec 27) (s : State) : Result :=
  answerDec b (.discard (portWord type 6 rest)) s

/-- DEC.BADPORT (41_decoder.md R103). -/
def execDecBadPort (b : BufId) (_type : TransferType) (_rest : BitVec 27) (s : State) : Result :=
  answerDec b (.err (.unrecognized .port 7)) s

/-- DEC.EVT.BADEVT7 (41_decoder.md R104). -/
def execDecEvtBadEvt7 (b : BufId) (_port : Port) (_hi : BitVec 3) (_lo : BitVec 20) (s : State) : Result :=
  answerDec b (.err (.unrecognized .eventType 7)) s

/-- DEC.EVT.BADEVT8 (41_decoder.md R104). -/
def execDecEvtBadEvt8 (b : BufId) (_port : Port) (_hi : BitVec 3) (v : BitVec 3) (_lo : BitVec 20) (s : State) :
    Result :=
  answerDec b (.err (.unrecognized .eventType (badEvt8Code v).toNat)) s

/-- DEC.OVERFLOW (41_decoder.md R105). -/
def execDecOverflow (b : BufId) (h : RxHeader) (available : Nat) (s : State) : Result :=
  answerDec b (.err (.lengthOverflow h.length available)) s

/-- DEC.PKT (41_decoder.md R96, R106, R107). -/
def execDecPkt (b : BufId) (h : RxPktHeader) (s : State) : Result := answerFrame b (.pkt h) s

/-- DEC.EVT (41_decoder.md R96, R106, R107). -/
def execDecEvt (b : BufId) (h : RxEvtHeader) (s : State) : Result := answerFrame b (.evt h) s

end Sys2Proof.Machine
end

