-- ==== Sys2Proof/Machine/Dispatcher.lean ====
section
/-! DEFINITION. Machine/Dispatcher.lean: the packet-type field dispatcher, DISPATCH (42_dispatcher.md), and RECV
(30_encoding.md R78). -/

namespace Sys2Proof.Machine

/-- The route key of a frame: by port and queue for a packet, by port and event type for an event (42_dispatcher.md
R118, R119). -/
def routeKey (f : DecodedFrame) : RouteKey :=
  match f.flags with
  | .rxPkt g => .pktKey f.port g.qsel
  | .rxEvt g => .evtKey f.port g.evtType

/-- `DISPATCH(outcome)` (42_dispatcher.md R115): total, and a function of the outcome alone (R122). -/
def route : DecOutcome → Route
  | .err e => .drop (.decodeFailed e)
  | .discard h => .drop (.discardPort h)
  | .ok f => .deliver (routeKey f) f

/-- The consumer that the external binding gives a route's key; the block's duty ends with the route (42_dispatcher.md
R120). A dropped frame has none. -/
def consumer? : Route → Option Nat
  | .deliver key _ => some (Config.handler key)
  | .drop _ => none

/-- DISPATCH (42_dispatcher.md R115). Its request has no buffer, so it is never refused. -/
def execDispatch (o : DecOutcome) (s : State) : Result := .next (s.respond (.route (route o)))

/-- RECV expands to DISPATCH (DEC buf) (30_encoding.md R78): the decode's response, then the route's
(notes/assumptions/14.md). -/
def execRecv (b : BufId) (s : State) : Result :=
  s.owned b fun buf => .next ((s.respond (.dec (dec buf))).respond (.route (route (dec buf))))

end Sys2Proof.Machine
end

