-- ==== Sys2Proof/Machine/Encoder.lean ====
section
/-! DEFINITION. Machine/Encoder.lean: the Header Encoder, ENC.PKT, ENC.CMD and ENC.DATA (40_encoder.md). The checks come
in the order BufferBusy, ConfigurationError, Oversize (60_exceptions.md R129); the port is not checked (R89). -/

namespace Sys2Proof.Machine

/-- The packet encode of a buffer's payload, once the flags are known (40_encoder.md R92). -/
def encodePacket (b : BufId) (port : Port) (f : TxPktFlags) (payload : Buffer) (s : State) : Result :=
  if admitSize payload.length .packet then
    .next (s.answerEnc b payload (txPktWord port f (alignedLen payload.length)))
  else .refused .oversize

/-- The command encode of a buffer's payload, once the flags are known (40_encoder.md R93). -/
def encodeCommand (b : BufId) (port : Port) (f : TxCmdFlags) (payload : Buffer) (s : State) : Result :=
  if admitSize payload.length .command then
    .next (s.answerEnc b payload (txCmdWord port f (alignedLen payload.length)))
  else .refused .oversize

/-- ENC.PKT (40_encoder.md R92). -/
def execEncPkt (b : BufId) (port : Port) (flags : TxFlags) (s : State) : Result :=
  s.owned b fun payload => withPktFlags flags fun f => encodePacket b port f payload s

/-- ENC.CMD (40_encoder.md R93). -/
def execEncCmd (b : BufId) (port : Port) (flags : TxFlags) (s : State) : Result :=
  s.owned b fun payload => withCmdFlags flags fun f => encodeCommand b port f payload s

/-- ENC.DATA expands to ENC.PKT with port WlanPort (30_encoding.md R78). -/
def execEncData (b : BufId) (f : TxPktFlags) (s : State) : Result :=
  s.owned b fun payload => encodePacket b .wlanPort f payload s

end Sys2Proof.Machine
end

