-- ==== Sys2Proof/Machine/Dispatch.lean ====
section
/-! DEFINITION. Machine/Dispatch.lean: one arm per constructor of Instr. -/

namespace Sys2Proof.Machine

def exec (i : Instr) (s : State) : Host.Outcome State Fault Refusal :=
  match i with
  | .encPkt b port flags => Sys2Proof.Machine.execEncPkt b port flags s
  | .encCmd b port flags => Sys2Proof.Machine.execEncCmd b port flags s
  | .encData b flags => Sys2Proof.Machine.execEncData b flags s
  | .decTooShort b n => Sys2Proof.Machine.execDecTooShort b n s
  | .decBadType b type rest => Sys2Proof.Machine.execDecBadType b type rest s
  | .decDiscard b type rest => Sys2Proof.Machine.execDecDiscard b type rest s
  | .decBadPort b type rest => Sys2Proof.Machine.execDecBadPort b type rest s
  | .decEvtBadEvt7 b port hi lo => Sys2Proof.Machine.execDecEvtBadEvt7 b port hi lo s
  | .decEvtBadEvt8 b port hi v lo => Sys2Proof.Machine.execDecEvtBadEvt8 b port hi v lo s
  | .decOverflow b h available => Sys2Proof.Machine.execDecOverflow b h available s
  | .decPkt b h => Sys2Proof.Machine.execDecPkt b h s
  | .decEvt b h => Sys2Proof.Machine.execDecEvt b h s
  | .dispatch o => Sys2Proof.Machine.execDispatch o s
  | .recv b => Sys2Proof.Machine.execRecv b s

end Sys2Proof.Machine
end

