-- ==== Sys2Proof/Machine/Serve.lean ====
section
/-! DEFINITION. Machine/Serve.lean: a concurrent request begins, and is served (10_state.md R30, 70_reset_and_hazards.md
R148). -/

namespace Sys2Proof.Machine

/-- A concurrent request begins (10_state.md R30). Where its operation would be refused it is refused now, with the same
first reason (60_exceptions.md R129), and it never owns its buffer; else it is in progress and its buffer is its own.
The spec gives no time for the checks of R81, R82 and R45 on a request that is in progress for a while: that they are all
made when it begins is the model's choice (DESIGN CHOICE, notes/assumptions/26.md). -/
def State.start (s : State) (r : Request) : Result :=
  match exec (s.fetch r) s with
  | .next _ => .next { s with inProgress := s.inProgress ++ [r] }
  | .fault x => .fault x
  | .refused x => .refused x

/-- The atomic step of the k-th oldest request in progress: it leaves the list, so it no longer counts as another
operation on its own buffer, and its operation is run. The operation makes its checks again; a request that began by
`State.start` passes them (notes/assumptions/26.md). With no k-th request nothing happens
(notes/assumptions/21.md). -/
def State.complete (s : State) (k : Nat) : Result :=
  match s.inProgress[k]? with
  | none => .next s
  | some r => exec (s.fetch r) { s with inProgress := s.inProgress.eraseIdx k }

/-- With no input waiting the oldest request in progress is served, so that every request is eventually served
(70_reset_and_hazards.md R148); the order is the model's choice (10_state.md R30: any order; notes/assumptions/7.md). With
none in progress the block is idle (60_exceptions.md R138). -/
def State.serveOldest (s : State) : Result := s.complete 0

end Sys2Proof.Machine
end

