-- ==== Sys2Proof/Machine/Step.lean ====
section
/-! DEFINITION. Machine/Step.lean: one step takes the next input and does it (10_state.md R17, R20, R30). -/

namespace Sys2Proof.Machine

/-- One step. With no input waiting, what is in progress is served (70_reset_and_hazards.md R148), and with nothing in
progress the block is idle (60_exceptions.md R138). -/
def step (s : State) : Host.Outcome State Fault Refusal :=
  match s.inputs with
  | [] => s.serveOldest
  | .request r :: rest => exec (s.fetch r) { s with inputs := rest }
  | .start r :: rest => State.start { s with inputs := rest } r
  | .complete k :: rest => State.complete { s with inputs := rest } k
  | .place b bytes :: rest => State.place { s with inputs := rest } b bytes
  | .reset :: rest => .next (State.abandon { s with inputs := rest })

/-- The state whose next step decodes a table word: the word's bytes stand in a fresh buffer, and a decode request for
it is the next input (notes/assumptions/2.md, notes/assumptions/3.md). -/
def State.withFetchWord (s : State) (nbits w : Nat) : State :=
  { s with
    buffers := s.buffers.set s.freshBuf (tableBytes nbits w)
    inputs := .request (.decode s.freshBuf) :: s.inputs }

end Sys2Proof.Machine
end

