-- ==== Sys2Proof/Safety.lean ====
section
/-! DEFINITION. Safety.lean: the words the statements use: the invariant of the machine, when a request is refused, and
what the loopback law says. -/

namespace Sys2Proof.Machine

/-- The buffers are in canonical form, and no buffer is in two operations in progress (20_memory.md R45). -/
def State.Inv (s : State) : Prop := s.buffers.wf ∧ (s.inProgress.filterMap Request.buf?).Nodup

/-- A bound on the steps until nothing waits and nothing is in progress: an input takes at most two, its own and the one
that serves the request it starts. -/
def State.pending (s : State) : Nat := 2 * s.inputs.length + s.inProgress.length

/-- The first reason to refuse a request: BufferBusy, then ConfigurationError, then Oversize (60_exceptions.md R129).
None: the request is admitted. -/
def State.firstRefusal (s : State) (r : Request) : Option Refusal :=
  if s.busyFor r then some .bufferBusy
  else
    match r with
    | .encode b _ ttype flags =>
      if !flags.belongsTo ttype then some .configurationError
      else if 65532 < (s.buffer b).length then some .oversize
      else if ttype = .command ∧ Config.cmdMaxLen.val < (s.buffer b).length then some .oversize
      else none
    | .encData b _ => if 65532 < (s.buffer b).length then some .oversize else none
    | .decode _ => none
    | .dispatch _ => none
    | .recv _ => none

/-- No request in progress would be refused, were it alone: the concurrent requests that began were admitted
(40_encoder.md R81, R82; when they are checked is the model's choice, notes/assumptions/26.md). -/
def State.Admitted (s : State) : Prop := ∀ r ∈ s.inProgress, State.firstRefusal { s with inProgress := [] } r = none

/-- The payload bytes a looped-back request gets (41_decoder.md R113): the first `A mod 2^14` bytes of
`payload ++ zeros(A - L)`. -/
def loopbackSlice (payload : Buffer) : Buffer :=
  (payload ++ zeros (roundUp payload.length 4 - payload.length)).take (roundUp payload.length 4 % 2 ^ 14)

/-- What DEC answers for the output of an admitted ENC.PKT with header word `h` (41_decoder.md R113). -/
def loopbackPkt (port : Port) (f : TxPktFlags) (payload : Buffer) (h : Word) : DecOutcome :=
  if port = .discard then .discard h
  else .ok {
    port := port
    declaredLength := BitVec.ofNat 14 (roundUp payload.length 4 % 2 ^ 14)
    flags := .rxPkt {
      udpErr := f.nextValid, tcpErr := f.txBurst, ipErr := false, is80211 := f.is80211, l3l4Done := f.tso,
      macHdrLen := (BitVec.ofBool f.cso).setWidth 3, pcieIntr := f.wiv, qsel := f.qsel }
    payloadSlice := loopbackSlice payload
    headerWord := h }

/-- What DEC answers for the output of an admitted ENC.CMD with header word `h` (41_decoder.md R113). -/
def loopbackCmd (port : Port) (f : TxCmdFlags) (payload : Buffer) (h : Word) : DecOutcome :=
  if port = .discard then .discard h
  else
    match eventOf? (f.cmdType.extractLsb' 0 4) with
    | none => .err (.unrecognized .eventType (f.cmdType.toNat % 16))
    | some e => .ok {
        port := port
        declaredLength := BitVec.ofNat 14 (roundUp payload.length 4 % 2 ^ 14)
        flags := .rxEvt {
          selfGen := (roundUp payload.length 4).testBit 15, seq := f.seq, evtType := e,
          pcieIntr := f.cmdType.getLsbD 4, qsel := qselOf (f.cmdType.extractLsb' 5 2) }
        payloadSlice := loopbackSlice payload
        headerWord := h }

/-- The flags 41_decoder.md R106 gives a header word of TYPE 0 or 1. -/
def FlagsOfHeader (h : Word) (flags : RxFlags) : Prop :=
  (field h 31 30 = 0 → flags = .rxPkt {
    udpErr := h.getLsbD 16, tcpErr := h.getLsbD 17, ipErr := h.getLsbD 18, is80211 := h.getLsbD 19,
    l3l4Done := h.getLsbD 20, macHdrLen := field h 23 21, pcieIntr := h.getLsbD 24,
    qsel := qselOf (field h 26 25) }) ∧
  (field h 31 30 = 1 → ∃ e, eventCode e = field h 23 20 ∧ flags = .rxEvt {
    selfGen := h.getLsbD 15, seq := field h 19 16, evtType := e, pcieIntr := h.getLsbD 24,
    qsel := qselOf (field h 26 25) })

end Sys2Proof.Machine

namespace Sys2Proof

/-- The `match` and `mask` of an operation's row in spec/opcode_table.json; none for a row that has none there. -/
def tableRow? : Instr → Option (Word × Word)
  | .encPkt .. => some (0x00000000, 0xC0C40000)
  | .encCmd .. => some (0x40000000, 0xC0000000)
  | .encData .. => some (0x00000000, 0xF8C40000)
  | .decTooShort .. => none
  | .decBadType .. => some (0x80000000, 0x80000000)
  | .decDiscard .. => some (0x30000000, 0xB8000000)
  | .decBadPort .. => some (0x38000000, 0xB8000000)
  | .decEvtBadEvt7 .. => some (0x40700000, 0xC0F00000)
  | .decEvtBadEvt8 .. => some (0x40800000, 0xC0800000)
  | .decOverflow .. => none
  | .decPkt .. => some (0x00000000, 0xC0000000)
  | .decEvt .. => some (0x40000000, 0xC0000000)
  | .dispatch .. => none
  | .recv .. => none

end Sys2Proof
end

