-- ==== Sys2Proof/Certificates/Slice0/Obligations.lean ====
section
/-! DEFINITION. Certificates/Slice0/Obligations.lean: the statements about the model, from the rules of spec/. -/

open Sys2Proof Sys2Proof.Machine

/-! ### Lengths, fields and codes -/

/-- 40_encoder.md R79, with its two closed forms and its six values. -/
def Obligations.RoundUpIsTheLeastMultipleOfFour : Prop :=
  (∀ x : Nat, x ≤ roundUp x 4 ∧ 4 ∣ roundUp x 4 ∧ (∀ m, x ≤ m → 4 ∣ m → roundUp x 4 ≤ m) ∧
    roundUp x 4 = x + (4 - x % 4) % 4 ∧ roundUp x 4 = (x + 3) - (x + 3) % 4) ∧
  roundUp 0 4 = 0 ∧ roundUp 1 4 = 4 ∧ roundUp 4 4 = 4 ∧ roundUp 5 4 = 8 ∧ roundUp 65532 4 = 65532 ∧
  roundUp 65533 4 = 65536

/-- 40_encoder.md section 1, pad length and minimum trailer; the closed forms are the spec's own derivations. -/
def Obligations.PadLengthIsFourToSevenBytes : Prop :=
  ∀ l : Nat, padLen l = roundUp (l + 4) 4 - (l + 4) + 4 ∧ padLen l = (4 - l % 4) % 4 + 4 ∧
    (l % 4 = 0 → padLen l = 4) ∧ (l % 4 = 1 → padLen l = 7) ∧ (l % 4 = 2 → padLen l = 6) ∧
    (l % 4 = 3 → padLen l = 5) ∧ 4 ≤ padLen l ∧ (padLen l = 4 ↔ l % 4 = 0)

/-- 30_encoding.md R52: `w[hi:lo]` is `(w >> lo) & (2^(hi-lo+1) - 1)`, a value of hi-lo+1 bits. -/
def Obligations.FieldExtractionIsShiftAndMask : Prop :=
  ∀ (w : Word) (hi lo : Nat), lo ≤ hi → hi < 32 →
    (field w hi lo).toNat = (w.toNat >>> lo) &&& (2 ^ (hi - lo + 1) - 1) ∧
    (field w hi lo).toNat < 2 ^ (hi - lo + 1)

/-- 30_encoding.md section 1, TXPKT: every bit of a TX packet header, with Length the rounded payload length. That the
three reserved bits are 0 is the spec's decision D7 (notes/assumptions/22.md). -/
def Obligations.TxPacketHeaderHasTheBitsOfTxpkt : Prop :=
  ∀ (port : Port) (f : TxPktFlags) (l : Nat), l ≤ 65532 →
    let w := txPktWord port f (alignedLen l)
    field w 31 30 = 0 ∧ field w 29 27 = portCode port ∧ field w 26 25 = qselCode f.qsel ∧ w.getLsbD 24 = f.wiv ∧
    w.getLsbD 23 = false ∧ w.getLsbD 22 = false ∧ w.getLsbD 21 = f.cso ∧ w.getLsbD 20 = f.tso ∧
    w.getLsbD 19 = f.is80211 ∧ w.getLsbD 18 = false ∧ w.getLsbD 17 = f.txBurst ∧ w.getLsbD 16 = f.nextValid ∧
    (field w 15 0).toNat = roundUp l 4

/-- 30_encoding.md R55: every bit of a TX command header. -/
def Obligations.TxCommandHeaderHasTheBitsOfTxcmd : Prop :=
  ∀ (port : Port) (f : TxCmdFlags) (l : Nat), l ≤ 65532 →
    let w := txCmdWord port f (alignedLen l)
    field w 31 30 = 1 ∧ field w 29 27 = portCode port ∧ field w 26 20 = f.cmdType ∧ field w 19 16 = f.seq ∧
    (field w 15 0).toNat = roundUp l 4

/-- 20_memory.md section 1: the header word is little-endian; reading it back gives the word, and writing what was read
gives the bytes. -/
def Obligations.HeaderBytesRoundTripLittleEndian : Prop :=
  (∀ w : Word, ∃ b0 b1 b2 b3 : Byte, le32 w = [b0, b1, b2, b3] ∧ fromLe32 b0 b1 b2 b3 = w ∧
    w.toNat = b0.toNat + 256 * b1.toNat + 65536 * b2.toNat + 16777216 * b3.toNat) ∧
  (∀ b0 b1 b2 b3 : Byte, le32 (fromLe32 b0 b1 b2 b3) = [b0, b1, b2, b3])

/-- 30_encoding.md section 1, the packet-type field dispatch: the layout of a word by direction and TYPE, the row an
encode request selects by its transfer type, and the row a decode request selects from the received bytes. -/
def Obligations.LayoutFollowsDirectionAndType : Prop :=
  layoutOf? .tx 0 = some .txPkt ∧ layoutOf? .tx 1 = some .txCmd ∧ layoutOf? .rx 0 = some .rxPkt ∧
  layoutOf? .rx 1 = some .rxEvt ∧ (∀ d, layoutOf? d 2 = none ∧ layoutOf? d 3 = none) ∧
  (∀ (s : State) (b : BufId) (port : Port) (flags : TxFlags),
    s.fetch (.encode b port .packet flags) = .encPkt b port flags ∧
    s.fetch (.encode b port .command flags) = .encCmd b port flags) ∧
  (∀ (s : State) (b : BufId), s.fetch (.decode b) = decodeRx b (s.buffer b))

/-- The enum codes. All but WlanPort = 0, Packet = 0, Command = 1 and Edca = 2 are the spec's own decisions D3, D4 and D5
(notes/assumptions/12.md). -/
def Obligations.EnumCodesAreTheListOrder : Prop :=
  [Port.wlanPort, .cpuRxPort, .cpuTxPort, .hostPort, .virtualCpuRxPort, .virtualCpuTxPort, .discard].map portCode =
    [0, 1, 2, 3, 4, 5, 6] ∧
  [QueueSelect.mgmt, .hcca, .edca, .edca2].map qselCode = [0, 1, 2, 3] ∧
  [EventType.cmdDone, .cmdError, .cmdRetry, .eventPwrRsp, .eventWowRsp, .eventCarrierDetectRsp,
    .eventDfsDetectRsp].map eventCode = [0, 1, 2, 3, 4, 5, 6] ∧
  (∀ p, portOf? (portCode p) = some p) ∧ portOf? 7 = none ∧ (∀ q, qselOf (qselCode q) = q) ∧
  (∀ e, eventOf? (eventCode e) = some e) ∧ (∀ v, eventOf? v = none ↔ 7 ≤ v.toNat)

/-! ### Decoding and encoding -/

/-- Decode and encode agree on the receive rows: the bytes of every well-formed DEC row decode to that row, with every
operand at every value. DISPATCH and RECV have no bytes of their own. -/
def Obligations.DecodeOfEncodeOnReceiveRows : Prop :=
  ∀ (i : Instr) (b : BufId) (a : BitVec 16),
    i.wellFormed = true → i.direction = .rx → i.buf? = some b → i ≠ .recv b →
    ∃ bytes, encode i a = some bytes ∧ decode .rx b bytes = .ok i

/-- Decode and encode agree on the transmit rows, with every Length the encoder can write; ENC.DATA's words decode to
the ENC.PKT they stand for (30_encoding.md section 5). -/
def Obligations.DecodeOfEncodeOnTransmitRows : Prop :=
  ∀ (i : Instr) (b : BufId) (a : BitVec 16),
    i.wellFormed = true → i.direction = .tx → i.buf? = some b → a.toNat % 4 = 0 →
    ∃ w, i.word? a = some w ∧ encode i a = some (le32 w) ∧ decode .tx b (le32 w) = .ok i.core ∧ field w 15 0 = a

/-- No bit of a header word is dropped: the row a buffer decodes to encodes to the buffer's own header word, and so does
the operation a TX word decodes to. -/
def Obligations.EncodeOfDecodeKeepsEveryHeaderBit : Prop :=
  (∀ (b : BufId) (b0 b1 b2 b3 : Byte) (rest : Buffer) (a : BitVec 16),
    (decodeRx b (b0 :: b1 :: b2 :: b3 :: rest)).word? a = some (fromLe32 b0 b1 b2 b3)) ∧
  (∀ (b : BufId) (w : Word) (i : Instr), decodeTxWord b w = .ok i → i.word? (field w 15 0) = some w)

/-- Whatever the decoder reads is well-formed, on every buffer and in both directions. -/
def Obligations.DecodedOperationsAreWellFormed : Prop :=
  ∀ (d : Direction) (b : BufId) (bytes : Buffer) (i : Instr), decode d b bytes = .ok i → i.wellFormed = true

/-- Words written out from the spec's encodings (95_test_vectors.md) decode to their rows. -/
def Obligations.SpecWordsDecodeToTheirRows : Prop :=
  decode .rx 3 [0x0C, 0x00, 0x08] = .ok (.decTooShort 3 3) ∧
  decode .rx 3 [0x00, 0x00, 0x00, 0x80] = .ok (.decBadType 3 2 0) ∧
  decode .rx 3 [0x64, 0x00, 0x00, 0x30] = .ok (.decDiscard 3 .packet 100) ∧
  decode .rx 3 [0x00, 0x00, 0x00, 0x38] = .ok (.decBadPort 3 .packet 0) ∧
  decode .rx 3 [0x04, 0x00, 0x70, 0x48] = .ok (.decEvtBadEvt7 3 .cpuRxPort 0 4) ∧
  decode .rx 3 [0x00, 0x00, 0x82, 0x48] = .ok (.decEvtBadEvt8 3 .cpuRxPort 0 0 0x20000) ∧
  decode .rx 3 [0x00, 0x00, 0x00, 0x00] =
    .ok (.decPkt 3 ⟨.wlanPort, ⟨false, false, false, false, false, 0, false, .mgmt⟩, 0, 0⟩) ∧
  decode .rx 3 [0x00, 0x80, 0x03, 0x48] =
    .ok (.decEvt 3 ⟨.cpuRxPort, ⟨true, 3, .cmdDone, false, .mgmt⟩, 0, 0⟩) ∧
  decode .tx 3 [0x0C, 0x00, 0x08, 0x04] =
    .ok (.encPkt 3 .wlanPort (.pktTx ⟨false, false, true, false, false, false, .edca⟩)) ∧
  decode .tx 3 [0x08, 0x00, 0xFA, 0x57] = .ok (.encCmd 3 .cpuTxPort (.cmdTx ⟨10, 127⟩))

/-- 30_encoding.md sections 1 to 3: which TX words the TX decoder reads. TYPE 2 or 3 and PORT 7 are rejected under their
own names; a word is read exactly when its TYPE, PORT and reserved bits are not reserved values and its Length is a
multiple of 4. It says nothing of the size policy. That there is a TX decoder is the model's choice (DESIGN CHOICE,
notes/assumptions/24.md). -/
def Obligations.TransmitDecoderRejectsReservedAndUnroundedWords : Prop :=
  ∀ (b : BufId) (w : Word),
    (field w 31 30 = 2 ∨ field w 31 30 = 3 → decodeTxWord b w = .error .reservedType) ∧
    (field w 31 30 = 0 ∨ field w 31 30 = 1 → field w 29 27 = 7 → decodeTxWord b w = .error .reservedPort) ∧
    ((∃ i, decodeTxWord b w = .ok i) ↔
      (field w 31 30 = 0 ∧ w.getLsbD 18 = false ∧ w.getLsbD 22 = false ∧ w.getLsbD 23 = false ∨ field w 31 30 = 1) ∧
      field w 29 27 ≠ 7 ∧ field w 1 0 = 0)

/-! ### The encoder -/

/-- ENC.PKT (40_encoder.md R92): the response and the whole next state, every other field unchanged; and where it is
refused instead. That the request's own buffer is what grows is the model's reading (DEDUCED,
notes/assumptions/6.md). -/
def Obligations.EncPktAnswersTheGrownBuffer : Prop :=
  ∀ (s : State) (b : BufId) (port : Port), s.busy b = false →
    let payload := s.buffer b
    let l := payload.length
    (∀ f : TxPktFlags, l ≤ 65532 →
      let h : Word := ins (BitVec.ofNat 16 (roundUp l 4)) 0 ||| insFlag f.nextValid 16 ||| insFlag f.txBurst 17
        ||| insFlag f.is80211 19 ||| insFlag f.tso 20 ||| insFlag f.cso 21 ||| insFlag f.wiv 24
        ||| ins (qselCode f.qsel) 25 ||| ins (portCode port) 27 ||| ins (0 : BitVec 2) 30
      let out := le32 h ++ payload ++ zeros (roundUp (l + 4) 4 - (l + 4) + 4)
      exec (.encPkt b port (.pktTx f)) s =
        .next { s with buffers := s.buffers.set b out, responses := .enc out :: s.responses }) ∧
    (∀ f : TxPktFlags, 65532 < l → exec (.encPkt b port (.pktTx f)) s = .refused .oversize) ∧
    (∀ g : TxCmdFlags, exec (.encPkt b port (.cmdTx g)) s = .refused .configurationError)

/-- ENC.CMD (40_encoder.md R93): the response and the whole next state; and where it is refused instead. That the
request's own buffer is what grows is the model's reading (DEDUCED, notes/assumptions/6.md). -/
def Obligations.EncCmdAnswersTheGrownBuffer : Prop :=
  ∀ (s : State) (b : BufId) (port : Port), s.busy b = false →
    let payload := s.buffer b
    let l := payload.length
    (∀ f : TxCmdFlags, l ≤ 65532 → l ≤ Config.cmdMaxLen.val →
      let h : Word := ins (BitVec.ofNat 16 (roundUp l 4)) 0 ||| ins f.seq 16 ||| ins f.cmdType 20
        ||| ins (portCode port) 27 ||| ins (1 : BitVec 2) 30
      let out := le32 h ++ payload ++ zeros (roundUp (l + 4) 4 - (l + 4) + 4)
      exec (.encCmd b port (.cmdTx f)) s =
        .next { s with buffers := s.buffers.set b out, responses := .enc out :: s.responses }) ∧
    (∀ f : TxCmdFlags, 65532 < l ∨ Config.cmdMaxLen.val < l →
      exec (.encCmd b port (.cmdTx f)) s = .refused .oversize) ∧
    (∀ g : TxPktFlags, exec (.encCmd b port (.pktTx g)) s = .refused .configurationError)

/-- ENC.DATA (30_encoding.md section 5) completes, and does what ENC.PKT with port WlanPort does in every state. That the
request's own buffer is what grows is the model's reading (DEDUCED, notes/assumptions/6.md). -/
def Obligations.EncDataIsEncPktOnWlanPort : Prop :=
  ∀ (s : State) (b : BufId) (f : TxPktFlags),
    exec (.encData b f) s = exec (.encPkt b .wlanPort (.pktTx f)) s ∧
    (s.busy b = false → (s.buffer b).length ≤ 65532 →
      let out := le32 (txPktWord .wlanPort f (alignedLen (s.buffer b).length)) ++ s.buffer b
        ++ zeros (padLen (s.buffer b).length)
      exec (.encData b f) s =
        .next { s with buffers := s.buffers.set b out, responses := .enc out :: s.responses })

/-- 40_encoder.md section 1: the layout and the length of the output of every admitted encode. That the output stands in
the request's own buffer is the model's reading (DEDUCED, notes/assumptions/6.md). -/
def Obligations.EncodedOutputHasItsLayoutAndLength : Prop :=
  ∀ (s t : State) (i : Instr) (b : BufId), i.direction = .tx → i.buf? = some b → exec i s = .next t →
    let payload := s.buffer b
    let l := payload.length
    let out := t.buffer b
    t.responses = .enc out :: s.responses ∧
    (∃ w, i.word? (alignedLen l) = some w ∧ out.take 4 = le32 w ∧ (field w 15 0).toNat = roundUp l 4) ∧
    (out.drop 4).take l = payload ∧ out.drop (4 + l) = zeros (padLen l) ∧
    out.length = 4 + l + padLen l ∧ out.length = roundUp l 4 + 8 ∧ out.length % 4 = 0 ∧
    l + 8 ≤ out.length ∧ out.length ≤ l + 11

/-- 40_encoder.md section 1, Length field coverage: a receiver that reads, from an encoder's output, as many bytes behind
the header as the header's own Length field says reads the payload and A - L zero bytes, at most 3; the last 4 bytes
always lie outside. -/
def Obligations.LengthFieldCoversPayloadAndAlignmentOnly : Prop :=
  ∀ (s t : State) (i : Instr) (b : BufId), i.direction = .tx → i.buf? = some b → exec i s = .next t →
    ∃ (w : Word) (out : Buffer), t.responses = .enc out :: s.responses ∧ out.take 4 = le32 w ∧
      let l := (s.buffer b).length
      let a := (field w 15 0).toNat
      l ≤ a ∧ a ≤ l + 3 ∧ (out.drop 4).take a = s.buffer b ++ zeros (a - l) ∧ out.drop (4 + a) = zeros 4

/-- 40_encoder.md section 1, the size precondition (decisions D12 and D13): with the type's flags and a free buffer, an
encode request completes exactly within the bound, and is refused as Oversize beyond it. -/
def Obligations.EncodeCompletesExactlyWithinTheSizeBound : Prop :=
  ∀ (s : State) (b : BufId) (port : Port) (f : TxPktFlags) (g : TxCmdFlags), s.busy b = false →
    let l := (s.buffer b).length
    ((∃ t, exec (.encPkt b port (.pktTx f)) s = .next t) ↔ roundUp l 4 ≤ 0xFFFF) ∧
    (roundUp l 4 ≤ 0xFFFF ↔ l ≤ 65532) ∧
    (¬ roundUp l 4 ≤ 0xFFFF → exec (.encPkt b port (.pktTx f)) s = .refused .oversize) ∧
    ((∃ t, exec (.encCmd b port (.cmdTx g)) s = .next t) ↔ roundUp l 4 ≤ 0xFFFF ∧ l ≤ Config.cmdMaxLen.val) ∧
    (¬ (roundUp l 4 ≤ 0xFFFF ∧ l ≤ Config.cmdMaxLen.val) → exec (.encCmd b port (.cmdTx g)) s = .refused .oversize)

/-- 40_encoder.md section 1 (decision D14): the port is not checked. Any port, Discard included, is written into D_PORT,
for both types. -/
def Obligations.EncoderWritesAnyPortAsGiven : Prop :=
  ∀ (s : State) (b : BufId) (port : Port), s.busy b = false → (s.buffer b).length ≤ 65532 →
    (∀ f : TxPktFlags, ∃ t w rest, exec (.encPkt b port (.pktTx f)) s = .next t ∧
      t.responses = .enc (le32 w ++ rest) :: s.responses ∧ field w 29 27 = portCode port) ∧
    (∀ g : TxCmdFlags, (s.buffer b).length ≤ Config.cmdMaxLen.val → ∃ t w rest,
      exec (.encCmd b port (.cmdTx g)) s = .next t ∧
      t.responses = .enc (le32 w ++ rest) :: s.responses ∧ field w 29 27 = portCode port)

/-- 60_exceptions.md section 2 (decision D15): a request is refused exactly with the first reason that applies, in the
order BufferBusy, ConfigurationError, Oversize. -/
def Obligations.RefusalIsTheFirstReasonThatApplies : Prop :=
  ∀ (s : State) (r : Request) (x : Refusal), exec (s.fetch r) s = .refused x ↔ s.firstRefusal r = some x

/-- An admitted request always completes (40_encoder.md section 1; 70_reset_and_hazards.md section 3, no hang): every
request, of every kind, in every state. -/
def Obligations.AdmittedRequestsAlwaysComplete : Prop :=
  ∀ (s : State) (r : Request), s.firstRefusal r = none → ∃ t, exec (s.fetch r) s = .next t

/-! ### The decoder -/

/-- DEC.TOOSHORT (41_decoder.md R97): the row completes, and a buffer of N < 4 bytes gets it, whatever its bytes. -/
def Obligations.ShortBuffersDecodeToTooShort : Prop :=
  (∀ (s : State) (b : BufId) (n : Nat), s.busy b = false →
    exec (.decTooShort b n) s = .next { s with responses := .dec (.err (.tooShort n)) :: s.responses }) ∧
  (∀ (s : State) (b : BufId), s.busy b = false → (s.buffer b).length < 4 →
    exec (s.fetch (.decode b)) s =
      .next { s with responses := .dec (.err (.tooShort (s.buffer b).length)) :: s.responses })

/-- DEC.BADTYPE (41_decoder.md section 2, decision D6): the row completes, and a header with TYPE 2 or 3 gets it,
whatever its other bits. -/
def Obligations.ReservedTypeDecodesToUnrecognizedType : Prop :=
  (∀ (s : State) (b : BufId) (t : BitVec 2) (rest : BitVec 30), s.busy b = false →
    exec (.decBadType b t rest) s =
      .next { s with responses := .dec (.err (.unrecognized .type t.toNat)) :: s.responses }) ∧
  (∀ (s : State) (b : BufId) (b0 b1 b2 b3 : Byte) (rest : Buffer), s.busy b = false →
    s.buffer b = b0 :: b1 :: b2 :: b3 :: rest →
    let t := field (fromLe32 b0 b1 b2 b3) 31 30
    (t = 2 ∨ t = 3) →
    exec (s.fetch (.decode b)) s =
      .next { s with responses := .dec (.err (.unrecognized .type t.toNat)) :: s.responses })

/-- DEC.DISCARD (41_decoder.md section 2, decision D10): the row completes, and a header of TYPE 0 or 1 with PORT 6 gets
the Discard outcome with its header word, whatever its EventType and Length. -/
def Obligations.DiscardPortDecodesToDiscard : Prop :=
  (∀ (s : State) (b : BufId) (t : TransferType) (rest : BitVec 27), s.busy b = false →
    exec (.decDiscard b t rest) s = .next { s with responses := .dec (.discard (portWord t 6 rest)) :: s.responses }) ∧
  (∀ (s : State) (b : BufId) (b0 b1 b2 b3 : Byte) (rest : Buffer), s.busy b = false →
    s.buffer b = b0 :: b1 :: b2 :: b3 :: rest →
    let h := fromLe32 b0 b1 b2 b3
    (field h 31 30 = 0 ∨ field h 31 30 = 1) → field h 29 27 = 6 →
    exec (s.fetch (.decode b)) s = .next { s with responses := .dec (.discard h) :: s.responses })

/-- DEC.BADPORT (41_decoder.md R103): the row completes, and a header of TYPE 0 or 1 with PORT 7 gets it, whatever its
EventType and Length. -/
def Obligations.ReservedPortDecodesToUnrecognizedPort : Prop :=
  (∀ (s : State) (b : BufId) (t : TransferType) (rest : BitVec 27), s.busy b = false →
    exec (.decBadPort b t rest) s =
      .next { s with responses := .dec (.err (.unrecognized .port 7)) :: s.responses }) ∧
  (∀ (s : State) (b : BufId) (b0 b1 b2 b3 : Byte) (rest : Buffer), s.busy b = false →
    s.buffer b = b0 :: b1 :: b2 :: b3 :: rest →
    let h := fromLe32 b0 b1 b2 b3
    (field h 31 30 = 0 ∨ field h 31 30 = 1) → field h 29 27 = 7 →
    exec (s.fetch (.decode b)) s =
      .next { s with responses := .dec (.err (.unrecognized .port 7)) :: s.responses })

/-- DEC.EVT.BADEVT7 and DEC.EVT.BADEVT8 (41_decoder.md section 2, decision D9): the rows complete, and an event header
with port 0 to 5 and EventType 7 to 15 gets one of them, whatever its Length. -/
def Obligations.ReservedEventDecodesToUnrecognizedEvent : Prop :=
  (∀ (s : State) (b : BufId) (p : Port) (hi : BitVec 3) (lo : BitVec 20), s.busy b = false →
    exec (.decEvtBadEvt7 b p hi lo) s =
      .next { s with responses := .dec (.err (.unrecognized .eventType 7)) :: s.responses }) ∧
  (∀ (s : State) (b : BufId) (p : Port) (hi v : BitVec 3) (lo : BitVec 20), s.busy b = false →
    exec (.decEvtBadEvt8 b p hi v lo) s =
      .next { s with responses := .dec (.err (.unrecognized .eventType (8 + v.toNat))) :: s.responses }) ∧
  (∀ (s : State) (b : BufId) (b0 b1 b2 b3 : Byte) (rest : Buffer), s.busy b = false →
    s.buffer b = b0 :: b1 :: b2 :: b3 :: rest →
    let h := fromLe32 b0 b1 b2 b3
    let v := (field h 23 20).toNat
    field h 31 30 = 1 → (field h 29 27).toNat ≤ 5 → 7 ≤ v →
    exec (s.fetch (.decode b)) s =
      .next { s with responses := .dec (.err (.unrecognized .eventType v)) :: s.responses })

/-- DEC.OVERFLOW (41_decoder.md R105): the row completes, and a header that passed the earlier checks and declares
D > N - 4 gets it. -/
def Obligations.OverlongLengthDecodesToLengthOverflow : Prop :=
  (∀ (s : State) (b : BufId) (hdr : RxHeader) (available : Nat), s.busy b = false →
    exec (.decOverflow b hdr available) s =
      .next { s with responses := .dec (.err (.lengthOverflow hdr.length available)) :: s.responses }) ∧
  (∀ (s : State) (b : BufId) (b0 b1 b2 b3 : Byte) (rest : Buffer), s.busy b = false →
    s.buffer b = b0 :: b1 :: b2 :: b3 :: rest →
    let h := fromLe32 b0 b1 b2 b3
    (field h 31 30 = 0 ∨ field h 31 30 = 1 ∧ (field h 23 20).toNat ≤ 6) → (field h 29 27).toNat ≤ 5 →
    (s.buffer b).length - 4 < (field h 13 0).toNat →
    exec (s.fetch (.decode b)) s =
      .next { s with
        responses := .dec (.err (.lengthOverflow (field h 13 0) ((s.buffer b).length - 4))) :: s.responses })

/-- DEC.PKT and DEC.EVT (41_decoder.md R107): the rows complete where the D payload bytes are there, and a header that
passed every check gets the frame. -/
def Obligations.CheckedHeadersDecodeToTheFrame : Prop :=
  (∀ (s : State) (b : BufId) (hdr : RxPktHeader), s.busy b = false → 4 + hdr.length.toNat ≤ (s.buffer b).length →
    exec (.decPkt b hdr) s = .next { s with responses := .dec (.ok {
      port := hdr.port, declaredLength := hdr.length, flags := .rxPkt hdr.flags,
      payloadSlice := ((s.buffer b).drop 4).take hdr.length.toNat, headerWord := rxPktWord hdr }) :: s.responses }) ∧
  (∀ (s : State) (b : BufId) (hdr : RxEvtHeader), s.busy b = false → 4 + hdr.length.toNat ≤ (s.buffer b).length →
    exec (.decEvt b hdr) s = .next { s with responses := .dec (.ok {
      port := hdr.port, declaredLength := hdr.length, flags := .rxEvt hdr.flags,
      payloadSlice := ((s.buffer b).drop 4).take hdr.length.toNat, headerWord := rxEvtWord hdr }) :: s.responses }) ∧
  (∀ (s : State) (b : BufId) (b0 b1 b2 b3 : Byte) (rest : Buffer), s.busy b = false →
    s.buffer b = b0 :: b1 :: b2 :: b3 :: rest →
    let h := fromLe32 b0 b1 b2 b3
    (field h 31 30 = 0 ∨ field h 31 30 = 1 ∧ (field h 23 20).toNat ≤ 6) → (field h 29 27).toNat ≤ 5 →
    (field h 13 0).toNat ≤ (s.buffer b).length - 4 →
    ∃ f : DecodedFrame,
      exec (s.fetch (.decode b)) s = .next { s with responses := .dec (.ok f) :: s.responses } ∧
      portCode f.port = field h 29 27 ∧ typeCode f.transferType = field h 31 30 ∧
      f.declaredLength = field h 13 0 ∧ FlagsOfHeader h f.flags ∧ f.payloadSlice = rest.take (field h 13 0).toNat ∧
      f.payloadSlice.length = (field h 13 0).toNat ∧ f.headerWord = h)

/-- 41_decoder.md R106: the flags of a frame are the bits of its header word, by TYPE. -/
def Obligations.FrameFlagsAreTheHeaderBits : Prop :=
  ∀ (s t : State) (b : BufId) (f : DecodedFrame), exec (s.fetch (.decode b)) s = .next t →
    t.responses = .dec (.ok f) :: s.responses →
    (field f.headerWord 31 30 = 0 ∨ field f.headerWord 31 30 = 1) ∧ FlagsOfHeader f.headerWord f.flags

/-- The nine DEC rows together are the operation DEC as 41_decoder.md section 1 writes it (decision D9): every decode
request on a free buffer answers `dec` of the buffer's bytes, and changes nothing else. -/
def Obligations.DecodeRequestsAnswerDec : Prop :=
  ∀ (s : State) (b : BufId), s.busy b = false →
    exec (s.fetch (.decode b)) s = .next { s with responses := .dec (dec (s.buffer b)) :: s.responses }

/-- 30_encoding.md section 3 (decision D8): flipping unassigned RX bits, 15:14 of a packet header or 14 of an event
header, changes no outcome but the header word it carries. -/
def Obligations.UnassignedReceiveBitsAreIgnored : Prop :=
  ∀ (h m : Word) (rest : Buffer),
    (field h 31 30 = 0 ∧ m &&& 0xFFFF3FFF = 0 ∨ field h 31 30 = 1 ∧ m &&& 0xFFFFBFFF = 0) →
    (∀ f, dec (le32 h ++ rest) = .ok f →
      f.headerWord = h ∧ dec (le32 (h ^^^ m) ++ rest) = .ok { f with headerWord := h ^^^ m }) ∧
    (∀ x, dec (le32 h ++ rest) = .discard x → x = h ∧ dec (le32 (h ^^^ m) ++ rest) = .discard (h ^^^ m)) ∧
    (∀ e, dec (le32 h ++ rest) = .err e → dec (le32 (h ^^^ m) ++ rest) = .err e)

/-- 41_decoder.md section 3: bytes behind the payload are neither checked nor reported. -/
def Obligations.TrailingBytesAreNotPartOfTheFrame : Prop :=
  ∀ (buf extra : Buffer) (f : DecodedFrame), dec buf = .ok f →
    dec (buf ++ extra) = .ok f ∧ f.payloadSlice.length = f.declaredLength.toNat ∧
    f.payloadSlice = (buf.drop 4).take f.declaredLength.toNat

/-- 41_decoder.md section 3: a frame never has port Discard or an unrecognised value. -/
def Obligations.FramesHaveRecognisedPortTypeAndEvent : Prop :=
  ∀ (buf : Buffer) (f : DecodedFrame), dec buf = .ok f →
    f.port ≠ .discard ∧ (portCode f.port).toNat ≤ 5 ∧ portCode f.port = field f.headerWord 29 27 ∧
    (field f.headerWord 31 30 = 0 ∨ field f.headerWord 31 30 = 1 ∧ (field f.headerWord 23 20).toNat ≤ 6)

/-- 60_exceptions.md section 1: no header word, buffer or length makes the block fault or stop taking requests. In every
state, reachable or not, no step faults; and a decode or receive request on a free buffer is answered, with the next
input waiting. -/
def Obligations.NoStepFaultsAndReceivingNeverStops : Prop :=
  (∀ (s : State) (x : Fault), step s ≠ .fault x) ∧
  (∀ (s : State) (b : BufId) (rest : List Input), s.busy b = false →
    (s.inputs = .request (.decode b) :: rest ∨ s.inputs = .request (.recv b) :: rest) →
    ∃ t, step s = .next t ∧ t.inputs = rest ∧ s.responses.length < t.responses.length)

/-- The loopback law (41_decoder.md section 4), which the spec derives: decoding what an admitted encode left in the
buffer, for packets, for commands, and when exactly the payload comes back. That the output stands in the request's
own buffer is the model's reading (DEDUCED, notes/assumptions/6.md). -/
def Obligations.LoopbackLaw : Prop :=
  (∀ (s : State) (b : BufId) (port : Port) (f : TxPktFlags), s.busy b = false → (s.buffer b).length ≤ 65532 →
    ∃ t h out, exec (.encPkt b port (.pktTx f)) s = .next t ∧ t.buffer b = out ∧ out.take 4 = le32 h ∧
      exec (t.fetch (.decode b)) t =
        .next { t with responses := .dec (loopbackPkt port f (s.buffer b) h) :: t.responses }) ∧
  (∀ (s : State) (b : BufId) (port : Port) (f : TxCmdFlags), s.busy b = false → (s.buffer b).length ≤ 65532 →
    (s.buffer b).length ≤ Config.cmdMaxLen.val →
    ∃ t h out, exec (.encCmd b port (.cmdTx f)) s = .next t ∧ t.buffer b = out ∧ out.take 4 = le32 h ∧
      exec (t.fetch (.decode b)) t =
        .next { t with responses := .dec (loopbackCmd port f (s.buffer b) h) :: t.responses }) ∧
  (∀ payload : Buffer, payload.length ≤ 65532 →
    (loopbackSlice payload = payload ↔ payload.length % 4 = 0 ∧ roundUp payload.length 4 < 2 ^ 14))

/-! ### The dispatcher -/

/-- 42_dispatcher.md R116 and R117: an error and a Discard frame are dropped, with what the transport logs. -/
def Obligations.ErrorsAndDiscardFramesAreDropped : Prop :=
  (∀ (s : State) (e : DecodeError), exec (.dispatch (.err e)) s =
    .next { s with responses := .route (.drop (.decodeFailed e)) :: s.responses }) ∧
  (∀ (s : State) (h : Word), exec (.dispatch (.discard h)) s =
    .next { s with responses := .route (.drop (.discardPort h)) :: s.responses })

/-- 42_dispatcher.md (decision D24): a packet frame is delivered by port and queue, an event frame by port and event
type, the whole frame with it. -/
def Obligations.FramesAreDeliveredByTheirKey : Prop :=
  (∀ (s : State) (f : DecodedFrame), f.transferType = .packet → exec (.dispatch (.ok f)) s =
    .next { s with responses := .route (.deliver (.pktKey f.port f.flags.qsel) f) :: s.responses }) ∧
  (∀ (s : State) (f : DecodedFrame) (g : RxEvtFlags), f.flags = .rxEvt g → exec (.dispatch (.ok f)) s =
    .next { s with responses := .route (.deliver (.evtKey f.port g.evtType) f) :: s.responses })

/-- 30_encoding.md section 5: RECV completes, and is the decode request followed by the dispatch of its outcome. That it
gives the responses of both is the model's choice (notes/assumptions/14.md). -/
def Obligations.RecvIsDecodeThenDispatch : Prop :=
  ∀ (s : State) (b : BufId), s.busy b = false →
    ∃ o t u, exec (s.fetch (.decode b)) s = .next t ∧ t.responses = .dec o :: s.responses ∧
      exec (t.fetch (.dispatch o)) t = .next u ∧ exec (.recv b) s = .next u ∧
      u = { s with responses := .route (route o) :: .dec o :: s.responses }

/-- 42_dispatcher.md section on DISPATCH, corner cases: what RECV delivers never names the Discard port, has exactly its
D payload bytes, and its key holds its own port and its own queue or event type. -/
def Obligations.DeliveredFramesNameARealPort : Prop :=
  ∀ (s t : State) (b : BufId) (key : RouteKey) (f : DecodedFrame) (older : List Response),
    exec (.recv b) s = .next t → t.responses = .route (.deliver key f) :: older →
    f.port ≠ .discard ∧ f.payloadSlice.length = f.declaredLength.toNat ∧
    ((field f.headerWord 31 30 = 0 ∧ key = .pktKey f.port (qselOf (field f.headerWord 26 25))) ∨
     (field f.headerWord 31 30 = 1 ∧ ∃ e, eventCode e = field f.headerWord 23 20 ∧ key = .evtKey f.port e))

/-! ### Frames, isolation and order -/

/-- The frame of ENC.PKT, ENC.CMD and ENC.DATA (20_memory.md sections 1 and 3): the only buffer written is the
operation's own, every byte of every other buffer reads as before, the payload's bytes stand unchanged and in order at
offsets 4 to 4+L-1 of its own, and nothing else changes but one response. That its own buffer is the request's is the
model's reading (DEDUCED, notes/assumptions/6.md). -/
def Obligations.EncodersWriteOnlyTheirBuffer : Prop :=
  ∀ (s t : State) (i : Instr) (b : BufId), i.direction = .tx → i.buf? = some b → exec i s = .next t →
    (∀ c a, c ≠ b → t.readByte c a = s.readByte c a) ∧
    (∀ k, k < (s.buffer b).length → t.readByte b (4 + k) = s.readByte b k) ∧
    t.inputs = s.inputs ∧ t.inProgress = s.inProgress ∧ t.freeCount = s.freeCount ∧
    ∃ out, t.responses = .enc out :: s.responses

/-- 20_memory.md R38: the decoder and the dispatcher write nothing. For the nine DEC rows, DISPATCH and RECV every byte
of every buffer reads as before, and nothing changes but responses. -/
def Obligations.ReceiveSideWritesNothing : Prop :=
  ∀ (s t : State) (i : Instr), i.direction = .rx → exec i s = .next t →
    (∀ c a, t.readByte c a = s.readByte c a) ∧ t.buffers = s.buffers ∧
    t.inputs = s.inputs ∧ t.inProgress = s.inProgress ∧ t.freeCount = s.freeCount ∧
    ∃ new, new ≠ [] ∧ t.responses = new ++ s.responses

/-- 10_state.md R15: the result of every operation is a function of that operation's request alone. Two states that hold
the same bytes in the request's buffer, whatever else they hold and whatever was answered before, give the same
responses and the same buffer. -/
def Obligations.ResponsesDependOnTheRequestAlone : Prop :=
  ∀ (s s' t : State) (r : Request), s.busyFor r = false → s'.busyFor r = false →
    (∀ b, r.buf? = some b → s.buffer b = s'.buffer b) → exec (s.fetch r) s = .next t →
    ∃ t' new, exec (s'.fetch r) s' = .next t' ∧ new ≠ [] ∧ t.responses = new ++ s.responses ∧
      t'.responses = new ++ s'.responses ∧ ∀ b a, r.buf? = some b → t.readByte b a = t'.readByte b a

/-- 20_memory.md section 3, the consistency model: two operations on distinct buffers, in either order, give each the
response it would have alone, and leave every buffer the same. -/
def Obligations.DistinctBuffersDoNotOrderEachOther : Prop :=
  ∀ (s t u : State) (p q : Request), (∀ b c, p.buf? = some b → q.buf? = some c → b ≠ c) →
    exec (s.fetch p) s = .next t → exec (s.fetch q) s = .next u →
    ∃ t' u' newP newQ, exec (t.fetch q) t = .next t' ∧ exec (u.fetch p) u = .next u' ∧
      t.responses = newP ++ s.responses ∧ u.responses = newQ ++ s.responses ∧
      t'.responses = newQ ++ newP ++ s.responses ∧ u'.responses = newP ++ newQ ++ s.responses ∧
      ∀ b a, t'.readByte b a = u'.readByte b a

/-- 20_memory.md section 2: reads have no side effects. Decoding the same buffer twice gives the same outcome, and
dispatching the same outcome twice the same route. -/
def Obligations.DecodingAndDispatchingTwiceAgree : Prop :=
  (∀ (s : State) (b : BufId), s.busy b = false → ∃ o t u,
    exec (s.fetch (.decode b)) s = .next t ∧ exec (t.fetch (.decode b)) t = .next u ∧
    u.responses = .dec o :: .dec o :: s.responses ∧ u.buffers = s.buffers) ∧
  (∀ (s : State) (o : DecOutcome), ∃ r t u, exec (.dispatch o) s = .next t ∧ exec (.dispatch o) t = .next u ∧
    u.responses = .route r :: .route r :: s.responses)

/-- 10_state.md section 2: each request is answered by exactly one response, of its interface's kind. That RECV, which
30_encoding.md section 5 expands to two operations, gives the responses of both is the model's choice (DESIGN CHOICE,
notes/assumptions/14.md). -/
def Obligations.EachRequestGetsItsOwnKindOfResponse : Prop :=
  ∀ (s t : State) (r : Request), exec (s.fetch r) s = .next t →
    match r with
    | .encode .. => ∃ out, t.responses = .enc out :: s.responses
    | .encData .. => ∃ out, t.responses = .enc out :: s.responses
    | .decode _ => ∃ o, t.responses = .dec o :: s.responses
    | .dispatch _ => ∃ x, t.responses = .route x :: s.responses
    | .recv _ => ∃ x o, t.responses = .route x :: .dec o :: s.responses

/-! ### The machine -/

/-- A step runs the decoded operation: with a request waiting, the step takes it off the inputs and is `exec` of the
operation it asks for; for a decode request that is the operation its buffer's bytes decode to; and with nothing waiting
and nothing in progress the block is idle (60_exceptions.md section 5). The clause about `withFetchWord` is the model's
choice: how a word is loaded, that a table word is read as a received one, and the reset state it starts from (DESIGN
CHOICE, notes/assumptions/2.md, notes/assumptions/3.md and notes/assumptions/1.md). -/
def Obligations.StepRunsTheDecodedOperation : Prop :=
  (∀ s : State, s.inputs = [] → s.inProgress = [] → step s = .next s) ∧
  (∀ (s : State) (r : Request) (rest : List Input), s.inputs = .request r :: rest →
    step s = exec (s.fetch r) { s with inputs := rest }) ∧
  (∀ (s : State) (b : BufId) (rest : List Input) (i : Instr), s.inputs = .request (.decode b) :: rest →
    decode .rx b (s.buffer b) = .ok i → step s = exec i { s with inputs := rest }) ∧
  (∀ nbits w : Nat, ∃ i, decodeTableWord nbits w = some i ∧
    step (State.reset.withFetchWord nbits w) =
      exec i { State.reset with buffers := Memory.set [] 0 (tableBytes nbits w) })

/-- 10_state.md section 3, agents: a request in progress is served by one step, in any order. The step takes it out of
the requests in progress and is `exec` of what it asks for then. That the input names the request, that naming none does
nothing, and that with no input the oldest is served are the model's choices (DESIGN CHOICE, notes/assumptions/7.md and
notes/assumptions/21.md). -/
def Obligations.ConcurrentRequestsAreServedByOneStep : Prop :=
  (∀ (s : State) (r : Request) (younger : List Request), s.inputs = [] → s.inProgress = r :: younger →
    step s = exec (s.fetch r) { s with inProgress := younger }) ∧
  ∀ (s : State) (k : Nat) (rest : List Input), s.inputs = .complete k :: rest →
    (∀ r, s.inProgress[k]? = some r →
      step s = exec (s.fetch r) { s with inputs := rest, inProgress := s.inProgress.eraseIdx k }) ∧
    (s.inProgress[k]? = none → step s = .next { s with inputs := rest })

/-- 20_memory.md section 3 (decision D21): a buffer in an operation in progress is in no other. Every operation on it is
refused as BufferBusy, whatever else is wrong with the request; so is a second concurrent request for it. A concurrent
request is refused when it begins, with the first reason that applies (60_exceptions.md section 2), and one with none is
then in progress: when the checks are made is the model's choice (DESIGN CHOICE, notes/assumptions/26.md). -/
def Obligations.BusyBuffersAreRefused : Prop :=
  (∀ (s : State) (i : Instr) (b : BufId), i.buf? = some b → s.busy b = true → exec i s = .refused .bufferBusy) ∧
  (∀ (s : State) (r : Request) (rest : List Input), s.inputs = .start r :: rest →
    (s.busyFor r = true → step s = .refused .bufferBusy) ∧
    (∀ x, s.firstRefusal r = some x → step s = .refused x) ∧
    (s.firstRefusal r = none → step s = .next { s with inputs := rest, inProgress := s.inProgress ++ [r] }))

/-- 70_reset_and_hazards.md section 1 (decision D18): reset abandons the requests in progress with no response; the
contents of their buffers are free values and every other byte of memory reads as before; between requests it has no
visible effect. That what waits and what was answered stay is the model's reading (notes/assumptions/8.md,
notes/assumptions/9.md). -/
def Obligations.ResetAbandonsRequestsInProgress : Prop :=
  ∀ (s : State) (rest : List Input), s.buffers.wf → s.inputs = .reset :: rest →
    ∃ t, step s = .next t ∧ t.inputs = rest ∧ t.inProgress = [] ∧ t.responses = s.responses ∧
      (∀ b, s.busy b = true → ∃ k, t.buffer b = Config.freeBuffer k) ∧
      (∀ b a, s.busy b = false → t.readByte b a = s.readByte b a) ∧
      (s.inProgress = [] → t = { s with inputs := rest })

/-- A buffer's owner may give it bytes while no operation has it: they read back, every byte of every other buffer reads
as before, and nothing else changes. The input that places bytes is the model's choice (DESIGN CHOICE,
notes/assumptions/7.md). -/
def Obligations.PlacedBytesReadBack : Prop :=
  ∀ (s : State) (b : BufId) (bytes : Buffer) (rest : List Input), s.buffers.wf → s.busy b = false →
    s.inputs = .place b bytes :: rest →
    ∃ t, step s = .next t ∧ t.inputs = rest ∧ t.buffer b = bytes ∧ (∀ c a, c ≠ b → t.readByte c a = s.readByte c a) ∧
      t.inProgress = s.inProgress ∧ t.responses = s.responses ∧ t.freeCount = s.freeCount

/-- 20_memory.md section 1: MemRead and MemWrite are defined only inside the buffer; there they read, and replace, exactly the
n bytes at the address. -/
def Obligations.MemoryAccessesStayInsideTheBuffer : Prop :=
  ∀ (buf v : Buffer) (addr n : Nat),
    ((memRead buf addr n).isSome ↔ addr + n ≤ buf.length) ∧
    ((memWrite buf addr v).isSome ↔ addr + v.length ≤ buf.length) ∧
    (∀ x, memRead buf addr n = some x → x.length = n ∧ ∀ k, k < n → x[k]? = buf[addr + k]?) ∧
    (∀ x, memWrite buf addr v = some x → x.length = buf.length ∧
      (∀ k, k < v.length → x[addr + k]? = v[k]?) ∧
      (∀ k, (k < addr ∨ addr + v.length ≤ k) → x[k]? = buf[k]?))

/-- The invariant holds after reset. 10_state.md section 4 says only that the block itself has no state: that nothing is in
progress and every buffer is empty after reset is the model's choice (DESIGN CHOICE, notes/assumptions/1.md and, for the
buffers, notes/assumptions/4.md). -/
def Obligations.ResetStateIsInCanonicalForm : Prop := State.reset.Inv

/-- The invariant: the buffers keep their canonical form, and no buffer is in two operations in progress. Every step
keeps it, from every state that has it. -/
def Obligations.EveryStepKeepsBuffersCanonicalAndExclusive : Prop :=
  ∀ s t : State, s.Inv → step s = .next t → t.Inv

/-- What is in progress was admitted: from every state in which no request in progress would be refused, were it alone, a
step gives a state of which the same holds. When the checks are made is the model's choice (DESIGN CHOICE,
notes/assumptions/26.md). -/
def Obligations.EveryStepKeepsRequestsInProgressAdmitted : Prop :=
  ∀ s t : State, s.Admitted → step s = .next t → t.Admitted

/-- 70_reset_and_hazards.md section 3, no hang: every request is eventually served. From every state, after at most two
steps for each input and one for each request in progress, either nothing waits and nothing is in progress or a request
was refused; and with no input waiting the admitted requests in progress are all answered, each with the responses it
would get alone. The order, oldest first, is the model's choice (DESIGN CHOICE, notes/assumptions/7.md). -/
def Obligations.EveryRequestIsEventuallyServed : Prop :=
  (∀ (s : State) (k : Nat), s.pending ≤ k →
    (∃ t : State, Sys2Proof.core.run k s = .next t ∧ t.inputs = [] ∧ t.inProgress = []) ∨
    (∃ x : Refusal, Sys2Proof.core.run k s = .refused x)) ∧
  (∀ s : State, s.Inv → s.Admitted → s.inputs = [] →
    ∃ (t : State) (alone : Request → List Response),
      Sys2Proof.core.run s.inProgress.length s = .next t ∧ t.inProgress = [] ∧
      t.responses = s.inProgress.reverse.flatMap alone ++ s.responses ∧
      ∀ r ∈ s.inProgress, alone r ≠ [] ∧
        ∃ u, exec (s.fetch r) { s with inProgress := [] } = .next u ∧ u.responses = alone r ++ s.responses)
end

