-- ==== Sys2Proof/Laws/Fields.lean ====
section
/-! SUPPORT. Laws/Fields.lean: the enum codes are inverse to their readers, and every field of an assembled header word
reads back as what was put in. -/

namespace Sys2Proof

/-! ### Enum codes -/

@[simp] theorem portOf?_portCode (p : Port) : portOf? (portCode p) = some p := by cases p <;> rfl

@[simp] theorem typeOf?_typeCode (t : TransferType) : typeOf? (typeCode t) = some t := by cases t <;> rfl

@[simp] theorem qselOf_qselCode (q : QueueSelect) : qselOf (qselCode q) = q := by cases q <;> rfl

@[simp] theorem qselCode_qselOf : ∀ q : BitVec 2, qselCode (qselOf q) = q := by decide

@[simp] theorem eventOf?_eventCode (e : EventType) : eventOf? (eventCode e) = some e := by cases e <;> rfl

theorem portCode_of_portOf? : ∀ (c : BitVec 3) (p : Port), portOf? c = some p → portCode p = c := by
  intro c p; cases p <;> revert c <;> decide

theorem portOf?_eq_none : ∀ c : BitVec 3, portOf? c = none → c = 7 := by decide

theorem typeCode_of_typeOf? : ∀ (c : BitVec 2) (t : TransferType), typeOf? c = some t → typeCode t = c := by
  intro c t; cases t <;> revert c <;> decide

theorem typeOf?_eq_none : ∀ c : BitVec 2, typeOf? c = none → c = 2 ∨ c = 3 := by decide

theorem eventCode_of_eventOf? : ∀ (c : BitVec 4) (e : EventType), eventOf? c = some e → eventCode e = c := by
  intro c e; cases e <;> revert c <;> decide

theorem eventOf?_eq_none_iff : ∀ c : BitVec 4, eventOf? c = none ↔ 7 ≤ c.toNat := by decide

/-! ### Bits of fields and of inserted fields -/

theorem getLsbD_field (w : Word) (hi lo i : Nat) :
    (field w hi lo).getLsbD i = (decide (i < hi + 1 - lo) && w.getLsbD (lo + i)) := by
  simp [field, BitVec.getLsbD_extractLsb']

theorem getLsbD_ins {n : Nat} (v : BitVec n) (lo i : Nat) :
    (ins v lo).getLsbD i = (decide (i < 32) && !decide (i < lo) && v.getLsbD (i - lo)) := by
  simp only [ins, BitVec.getLsbD_shiftLeft, BitVec.getLsbD_setWidth]
  by_cases h : i < 32
  · have h' : i - lo < 32 := by omega
    simp [h, h']
  · simp [h]

/-! ### RXPKT words -/

@[simp] theorem rxPktWord_type (h : RxPktHeader) : field (rxPktWord h) 31 30 = typeCode .packet := by
  apply BitVec.eq_of_getLsbD_eq
  intro i hi
  simp only [getLsbD_field, rxPktWord, insFlag, BitVec.getLsbD_or, getLsbD_ins, typeCode]
  interval_cases i <;> simp

@[simp] theorem rxPktWord_port (h : RxPktHeader) : field (rxPktWord h) 29 27 = portCode h.port := by
  apply BitVec.eq_of_getLsbD_eq
  intro i hi
  simp only [getLsbD_field, rxPktWord, insFlag, BitVec.getLsbD_or, getLsbD_ins]
  interval_cases i <;> simp

@[simp] theorem rxPktWord_unassigned (h : RxPktHeader) : field (rxPktWord h) 15 14 = h.unassigned := by
  apply BitVec.eq_of_getLsbD_eq
  intro i hi
  simp only [getLsbD_field, rxPktWord, insFlag, BitVec.getLsbD_or, getLsbD_ins]
  interval_cases i <;> simp

@[simp] theorem rxPktWord_length (h : RxPktHeader) : field (rxPktWord h) 13 0 = h.length := by
  apply BitVec.eq_of_getLsbD_eq
  intro i hi
  simp only [getLsbD_field, rxPktWord, insFlag, BitVec.getLsbD_or, getLsbD_ins]
  interval_cases i <;> simp

@[simp] theorem rxPktWord_qsel (h : RxPktHeader) : field (rxPktWord h) 26 25 = qselCode h.flags.qsel := by
  apply BitVec.eq_of_getLsbD_eq
  intro i hi
  simp only [getLsbD_field, rxPktWord, insFlag, BitVec.getLsbD_or, getLsbD_ins]
  interval_cases i <;> simp

@[simp] theorem rxPktWord_macHdrLen (h : RxPktHeader) : field (rxPktWord h) 23 21 = h.flags.macHdrLen := by
  apply BitVec.eq_of_getLsbD_eq
  intro i hi
  simp only [getLsbD_field, rxPktWord, insFlag, BitVec.getLsbD_or, getLsbD_ins]
  interval_cases i <;> simp

theorem rxPktWord_udpErr (h : RxPktHeader) : (rxPktWord h).getLsbD 16 = h.flags.udpErr := by
  simp only [rxPktWord, insFlag, BitVec.getLsbD_or, getLsbD_ins]
  simp

theorem rxPktWord_tcpErr (h : RxPktHeader) : (rxPktWord h).getLsbD 17 = h.flags.tcpErr := by
  simp only [rxPktWord, insFlag, BitVec.getLsbD_or, getLsbD_ins]
  simp

theorem rxPktWord_ipErr (h : RxPktHeader) : (rxPktWord h).getLsbD 18 = h.flags.ipErr := by
  simp only [rxPktWord, insFlag, BitVec.getLsbD_or, getLsbD_ins]
  simp

theorem rxPktWord_is80211 (h : RxPktHeader) : (rxPktWord h).getLsbD 19 = h.flags.is80211 := by
  simp only [rxPktWord, insFlag, BitVec.getLsbD_or, getLsbD_ins]
  simp

theorem rxPktWord_l3l4Done (h : RxPktHeader) : (rxPktWord h).getLsbD 20 = h.flags.l3l4Done := by
  simp only [rxPktWord, insFlag, BitVec.getLsbD_or, getLsbD_ins]
  simp

theorem rxPktWord_pcieIntr (h : RxPktHeader) : (rxPktWord h).getLsbD 24 = h.flags.pcieIntr := by
  simp only [rxPktWord, insFlag, BitVec.getLsbD_or, getLsbD_ins]
  simp

@[simp] theorem rxPktFlagsOf_rxPktWord (h : RxPktHeader) : rxPktFlagsOf (rxPktWord h) = h.flags := by
  simp only [rxPktFlagsOf, rxPktWord_udpErr, rxPktWord_tcpErr, rxPktWord_ipErr, rxPktWord_is80211,
    rxPktWord_l3l4Done, rxPktWord_macHdrLen, rxPktWord_pcieIntr, rxPktWord_qsel, qselOf_qselCode]

/-! ### RXEVT words -/

@[simp] theorem rxEvtWord_type (h : RxEvtHeader) : field (rxEvtWord h) 31 30 = typeCode .command := by
  apply BitVec.eq_of_getLsbD_eq
  intro i hi
  simp only [getLsbD_field, rxEvtWord, insFlag, BitVec.getLsbD_or, getLsbD_ins, typeCode]
  interval_cases i <;> simp

@[simp] theorem rxEvtWord_port (h : RxEvtHeader) : field (rxEvtWord h) 29 27 = portCode h.port := by
  apply BitVec.eq_of_getLsbD_eq
  intro i hi
  simp only [getLsbD_field, rxEvtWord, insFlag, BitVec.getLsbD_or, getLsbD_ins]
  interval_cases i <;> simp

@[simp] theorem rxEvtWord_event (h : RxEvtHeader) : field (rxEvtWord h) 23 20 = eventCode h.flags.evtType := by
  apply BitVec.eq_of_getLsbD_eq
  intro i hi
  simp only [getLsbD_field, rxEvtWord, insFlag, BitVec.getLsbD_or, getLsbD_ins]
  interval_cases i <;> simp

@[simp] theorem rxEvtWord_unassigned (h : RxEvtHeader) : field (rxEvtWord h) 14 14 = h.unassigned := by
  apply BitVec.eq_of_getLsbD_eq
  intro i hi
  simp only [getLsbD_field, rxEvtWord, insFlag, BitVec.getLsbD_or, getLsbD_ins]
  interval_cases i; simp

@[simp] theorem rxEvtWord_length (h : RxEvtHeader) : field (rxEvtWord h) 13 0 = h.length := by
  apply BitVec.eq_of_getLsbD_eq
  intro i hi
  simp only [getLsbD_field, rxEvtWord, insFlag, BitVec.getLsbD_or, getLsbD_ins]
  interval_cases i <;> simp

@[simp] theorem rxEvtWord_qsel (h : RxEvtHeader) : field (rxEvtWord h) 26 25 = qselCode h.flags.qsel := by
  apply BitVec.eq_of_getLsbD_eq
  intro i hi
  simp only [getLsbD_field, rxEvtWord, insFlag, BitVec.getLsbD_or, getLsbD_ins]
  interval_cases i <;> simp

@[simp] theorem rxEvtWord_seq (h : RxEvtHeader) : field (rxEvtWord h) 19 16 = h.flags.seq := by
  apply BitVec.eq_of_getLsbD_eq
  intro i hi
  simp only [getLsbD_field, rxEvtWord, insFlag, BitVec.getLsbD_or, getLsbD_ins]
  interval_cases i <;> simp

theorem rxEvtWord_selfGen (h : RxEvtHeader) : (rxEvtWord h).getLsbD 15 = h.flags.selfGen := by
  simp only [rxEvtWord, insFlag, BitVec.getLsbD_or, getLsbD_ins]
  simp

theorem rxEvtWord_pcieIntr (h : RxEvtHeader) : (rxEvtWord h).getLsbD 24 = h.flags.pcieIntr := by
  simp only [rxEvtWord, insFlag, BitVec.getLsbD_or, getLsbD_ins]
  simp

@[simp] theorem rxEvtFlagsOf_rxEvtWord (h : RxEvtHeader) :
    rxEvtFlagsOf (rxEvtWord h) h.flags.evtType = h.flags := by
  simp only [rxEvtFlagsOf, rxEvtWord_selfGen, rxEvtWord_seq, rxEvtWord_pcieIntr, rxEvtWord_qsel, qselOf_qselCode]

/-! ### Words of the rows with no frame -/

@[simp] theorem badTypeWord_type (t : BitVec 2) (r : BitVec 30) : field (badTypeWord t r) 31 30 = t := by
  apply BitVec.eq_of_getLsbD_eq
  intro i hi
  simp only [getLsbD_field, badTypeWord, BitVec.getLsbD_or, getLsbD_ins]
  interval_cases i <;> simp

@[simp] theorem badTypeWord_rest (t : BitVec 2) (r : BitVec 30) : field (badTypeWord t r) 29 0 = r := by
  apply BitVec.eq_of_getLsbD_eq
  intro i hi
  simp only [getLsbD_field, badTypeWord, BitVec.getLsbD_or, getLsbD_ins]
  interval_cases i <;> simp

@[simp] theorem portWord_type (t : TransferType) (p : BitVec 3) (r : BitVec 27) : field (portWord t p r) 31 30 = typeCode t := by
  apply BitVec.eq_of_getLsbD_eq
  intro i hi
  simp only [getLsbD_field, portWord, BitVec.getLsbD_or, getLsbD_ins]
  interval_cases i <;> simp

@[simp] theorem portWord_port (t : TransferType) (p : BitVec 3) (r : BitVec 27) : field (portWord t p r) 29 27 = p := by
  apply BitVec.eq_of_getLsbD_eq
  intro i hi
  simp only [getLsbD_field, portWord, BitVec.getLsbD_or, getLsbD_ins]
  interval_cases i <;> simp

@[simp] theorem portWord_rest (t : TransferType) (p : BitVec 3) (r : BitVec 27) : field (portWord t p r) 26 0 = r := by
  apply BitVec.eq_of_getLsbD_eq
  intro i hi
  simp only [getLsbD_field, portWord, BitVec.getLsbD_or, getLsbD_ins]
  interval_cases i <;> simp

@[simp] theorem evtCodeWord_type (p : Port) (hi : BitVec 3) (v : BitVec 4) (lo : BitVec 20) : field (evtCodeWord p hi v lo) 31 30 = typeCode .command := by
  apply BitVec.eq_of_getLsbD_eq
  intro i hi
  simp only [getLsbD_field, evtCodeWord, BitVec.getLsbD_or, getLsbD_ins, typeCode]
  interval_cases i <;> simp

@[simp] theorem evtCodeWord_port (p : Port) (hi : BitVec 3) (v : BitVec 4) (lo : BitVec 20) : field (evtCodeWord p hi v lo) 29 27 = portCode p := by
  apply BitVec.eq_of_getLsbD_eq
  intro i hi
  simp only [getLsbD_field, evtCodeWord, BitVec.getLsbD_or, getLsbD_ins]
  interval_cases i <;> simp

@[simp] theorem evtCodeWord_hi (p : Port) (hi : BitVec 3) (v : BitVec 4) (lo : BitVec 20) : field (evtCodeWord p hi v lo) 26 24 = hi := by
  apply BitVec.eq_of_getLsbD_eq
  intro i hi
  simp only [getLsbD_field, evtCodeWord, BitVec.getLsbD_or, getLsbD_ins]
  interval_cases i <;> simp

@[simp] theorem evtCodeWord_event (p : Port) (hi : BitVec 3) (v : BitVec 4) (lo : BitVec 20) : field (evtCodeWord p hi v lo) 23 20 = v := by
  apply BitVec.eq_of_getLsbD_eq
  intro i hi
  simp only [getLsbD_field, evtCodeWord, BitVec.getLsbD_or, getLsbD_ins]
  interval_cases i <;> simp

@[simp] theorem evtCodeWord_lo (p : Port) (hi : BitVec 3) (v : BitVec 4) (lo : BitVec 20) : field (evtCodeWord p hi v lo) 19 0 = lo := by
  apply BitVec.eq_of_getLsbD_eq
  intro i hi
  simp only [getLsbD_field, evtCodeWord, BitVec.getLsbD_or, getLsbD_ins]
  interval_cases i <;> simp

@[simp] theorem evtCodeWord_eventLow (p : Port) (hi : BitVec 3) (v : BitVec 4) (lo : BitVec 20) : field (evtCodeWord p hi v lo) 22 20 = v.setWidth 3 := by
  apply BitVec.eq_of_getLsbD_eq
  intro i hi
  simp only [getLsbD_field, evtCodeWord, BitVec.getLsbD_or, getLsbD_ins]
  interval_cases i <;> simp

theorem evtCodeWord_bit23 (p : Port) (hi : BitVec 3) (v : BitVec 4) (lo : BitVec 20) : (evtCodeWord p hi v lo).getLsbD 23 = v.getLsbD 3 := by
  simp only [evtCodeWord, BitVec.getLsbD_or, getLsbD_ins]
  simp

/-! ### TXPKT words, read as TX and as RX (loopback) -/

@[simp] theorem txPktWord_type (p : Port) (f : TxPktFlags) (a : BitVec 16) : field (txPktWord p f a) 31 30 = typeCode .packet := by
  apply BitVec.eq_of_getLsbD_eq
  intro i hi
  simp only [getLsbD_field, txPktWord, insFlag, BitVec.getLsbD_or, getLsbD_ins, typeCode]
  interval_cases i <;> simp

@[simp] theorem txPktWord_port (p : Port) (f : TxPktFlags) (a : BitVec 16) : field (txPktWord p f a) 29 27 = portCode p := by
  apply BitVec.eq_of_getLsbD_eq
  intro i hi
  simp only [getLsbD_field, txPktWord, insFlag, BitVec.getLsbD_or, getLsbD_ins]
  interval_cases i <;> simp

@[simp] theorem txPktWord_qsel (p : Port) (f : TxPktFlags) (a : BitVec 16) : field (txPktWord p f a) 26 25 = qselCode f.qsel := by
  apply BitVec.eq_of_getLsbD_eq
  intro i hi
  simp only [getLsbD_field, txPktWord, insFlag, BitVec.getLsbD_or, getLsbD_ins]
  interval_cases i <;> simp

@[simp] theorem txPktWord_length (p : Port) (f : TxPktFlags) (a : BitVec 16) : field (txPktWord p f a) 15 0 = a := by
  apply BitVec.eq_of_getLsbD_eq
  intro i hi
  simp only [getLsbD_field, txPktWord, insFlag, BitVec.getLsbD_or, getLsbD_ins]
  interval_cases i <;> simp

@[simp] theorem txPktWord_low2 (p : Port) (f : TxPktFlags) (a : BitVec 16) : field (txPktWord p f a) 1 0 = a.setWidth 2 := by
  apply BitVec.eq_of_getLsbD_eq
  intro i hi
  simp only [getLsbD_field, txPktWord, insFlag, BitVec.getLsbD_or, getLsbD_ins]
  interval_cases i <;> simp

@[simp] theorem txPktWord_rxLength (p : Port) (f : TxPktFlags) (a : BitVec 16) : field (txPktWord p f a) 13 0 = a.setWidth 14 := by
  apply BitVec.eq_of_getLsbD_eq
  intro i hi
  simp only [getLsbD_field, txPktWord, insFlag, BitVec.getLsbD_or, getLsbD_ins]
  interval_cases i <;> simp

@[simp] theorem txPktWord_rxMacHdrLen (p : Port) (f : TxPktFlags) (a : BitVec 16) : field (txPktWord p f a) 23 21 = (BitVec.ofBool f.cso).setWidth 3 := by
  apply BitVec.eq_of_getLsbD_eq
  intro i hi
  simp only [getLsbD_field, txPktWord, insFlag, BitVec.getLsbD_or, getLsbD_ins]
  interval_cases i <;> simp

theorem txPktWord_nextValid (p : Port) (f : TxPktFlags) (a : BitVec 16) : (txPktWord p f a).getLsbD 16 = f.nextValid := by
  simp only [txPktWord, insFlag, BitVec.getLsbD_or, getLsbD_ins]
  simp

theorem txPktWord_txBurst (p : Port) (f : TxPktFlags) (a : BitVec 16) : (txPktWord p f a).getLsbD 17 = f.txBurst := by
  simp only [txPktWord, insFlag, BitVec.getLsbD_or, getLsbD_ins]
  simp

theorem txPktWord_is80211 (p : Port) (f : TxPktFlags) (a : BitVec 16) : (txPktWord p f a).getLsbD 19 = f.is80211 := by
  simp only [txPktWord, insFlag, BitVec.getLsbD_or, getLsbD_ins]
  simp

theorem txPktWord_tso (p : Port) (f : TxPktFlags) (a : BitVec 16) : (txPktWord p f a).getLsbD 20 = f.tso := by
  simp only [txPktWord, insFlag, BitVec.getLsbD_or, getLsbD_ins]
  simp

theorem txPktWord_cso (p : Port) (f : TxPktFlags) (a : BitVec 16) : (txPktWord p f a).getLsbD 21 = f.cso := by
  simp only [txPktWord, insFlag, BitVec.getLsbD_or, getLsbD_ins]
  simp

theorem txPktWord_wiv (p : Port) (f : TxPktFlags) (a : BitVec 16) : (txPktWord p f a).getLsbD 24 = f.wiv := by
  simp only [txPktWord, insFlag, BitVec.getLsbD_or, getLsbD_ins]
  simp

theorem txPktWord_bit18 (p : Port) (f : TxPktFlags) (a : BitVec 16) : (txPktWord p f a).getLsbD 18 = false := by
  simp only [txPktWord, insFlag, BitVec.getLsbD_or, getLsbD_ins]
  simp

theorem txPktWord_bit22 (p : Port) (f : TxPktFlags) (a : BitVec 16) : (txPktWord p f a).getLsbD 22 = false := by
  simp only [txPktWord, insFlag, BitVec.getLsbD_or, getLsbD_ins]
  simp

theorem txPktWord_bit23 (p : Port) (f : TxPktFlags) (a : BitVec 16) : (txPktWord p f a).getLsbD 23 = false := by
  simp only [txPktWord, insFlag, BitVec.getLsbD_or, getLsbD_ins]
  simp

@[simp] theorem txPktFlagsOf_txPktWord (p : Port) (f : TxPktFlags) (a : BitVec 16) :
    txPktFlagsOf (txPktWord p f a) = f := by
  simp only [txPktFlagsOf, txPktWord_nextValid, txPktWord_txBurst, txPktWord_is80211, txPktWord_tso, txPktWord_cso,
    txPktWord_wiv, txPktWord_qsel, qselOf_qselCode]

/-- 41_decoder.md R113: what the RX layout makes of a TXPKT word's flag bits. -/
theorem rxPktFlagsOf_txPktWord (p : Port) (f : TxPktFlags) (a : BitVec 16) :
    rxPktFlagsOf (txPktWord p f a) =
      { udpErr := f.nextValid, tcpErr := f.txBurst, ipErr := false, is80211 := f.is80211, l3l4Done := f.tso,
        macHdrLen := (BitVec.ofBool f.cso).setWidth 3, pcieIntr := f.wiv, qsel := f.qsel } := by
  simp only [rxPktFlagsOf, txPktWord_nextValid, txPktWord_txBurst, txPktWord_bit18, txPktWord_is80211, txPktWord_tso,
    txPktWord_rxMacHdrLen, txPktWord_wiv, txPktWord_qsel, qselOf_qselCode]

/-! ### TXCMD words, read as TX and as RX (loopback) -/

@[simp] theorem txCmdWord_type (p : Port) (f : TxCmdFlags) (a : BitVec 16) : field (txCmdWord p f a) 31 30 = typeCode .command := by
  apply BitVec.eq_of_getLsbD_eq
  intro i hi
  simp only [getLsbD_field, txCmdWord, BitVec.getLsbD_or, getLsbD_ins, typeCode]
  interval_cases i <;> simp

@[simp] theorem txCmdWord_port (p : Port) (f : TxCmdFlags) (a : BitVec 16) : field (txCmdWord p f a) 29 27 = portCode p := by
  apply BitVec.eq_of_getLsbD_eq
  intro i hi
  simp only [getLsbD_field, txCmdWord, BitVec.getLsbD_or, getLsbD_ins]
  interval_cases i <;> simp

@[simp] theorem txCmdWord_cmdType (p : Port) (f : TxCmdFlags) (a : BitVec 16) : field (txCmdWord p f a) 26 20 = f.cmdType := by
  apply BitVec.eq_of_getLsbD_eq
  intro i hi
  simp only [getLsbD_field, txCmdWord, BitVec.getLsbD_or, getLsbD_ins]
  interval_cases i <;> simp

@[simp] theorem txCmdWord_seq (p : Port) (f : TxCmdFlags) (a : BitVec 16) : field (txCmdWord p f a) 19 16 = f.seq := by
  apply BitVec.eq_of_getLsbD_eq
  intro i hi
  simp only [getLsbD_field, txCmdWord, BitVec.getLsbD_or, getLsbD_ins]
  interval_cases i <;> simp

@[simp] theorem txCmdWord_length (p : Port) (f : TxCmdFlags) (a : BitVec 16) : field (txCmdWord p f a) 15 0 = a := by
  apply BitVec.eq_of_getLsbD_eq
  intro i hi
  simp only [getLsbD_field, txCmdWord, BitVec.getLsbD_or, getLsbD_ins]
  interval_cases i <;> simp

@[simp] theorem txCmdWord_low2 (p : Port) (f : TxCmdFlags) (a : BitVec 16) : field (txCmdWord p f a) 1 0 = a.setWidth 2 := by
  apply BitVec.eq_of_getLsbD_eq
  intro i hi
  simp only [getLsbD_field, txCmdWord, BitVec.getLsbD_or, getLsbD_ins]
  interval_cases i <;> simp

@[simp] theorem txCmdWord_rxLength (p : Port) (f : TxCmdFlags) (a : BitVec 16) : field (txCmdWord p f a) 13 0 = a.setWidth 14 := by
  apply BitVec.eq_of_getLsbD_eq
  intro i hi
  simp only [getLsbD_field, txCmdWord, BitVec.getLsbD_or, getLsbD_ins]
  interval_cases i <;> simp

@[simp] theorem txCmdWord_rxEvent (p : Port) (f : TxCmdFlags) (a : BitVec 16) : field (txCmdWord p f a) 23 20 = f.cmdType.extractLsb' 0 4 := by
  apply BitVec.eq_of_getLsbD_eq
  intro i hi
  simp only [getLsbD_field, txCmdWord, BitVec.getLsbD_or, getLsbD_ins]
  interval_cases i <;> simp

@[simp] theorem txCmdWord_rxQsel (p : Port) (f : TxCmdFlags) (a : BitVec 16) : field (txCmdWord p f a) 26 25 = f.cmdType.extractLsb' 5 2 := by
  apply BitVec.eq_of_getLsbD_eq
  intro i hi
  simp only [getLsbD_field, txCmdWord, BitVec.getLsbD_or, getLsbD_ins]
  interval_cases i <;> simp

theorem txCmdWord_rxSelfGen (p : Port) (f : TxCmdFlags) (a : BitVec 16) : (txCmdWord p f a).getLsbD 15 = a.getLsbD 15 := by
  simp only [txCmdWord, BitVec.getLsbD_or, getLsbD_ins]
  simp

theorem txCmdWord_rxPcieIntr (p : Port) (f : TxCmdFlags) (a : BitVec 16) : (txCmdWord p f a).getLsbD 24 = f.cmdType.getLsbD 4 := by
  simp only [txCmdWord, BitVec.getLsbD_or, getLsbD_ins]
  simp

@[simp] theorem txCmdFlagsOf_txCmdWord (p : Port) (f : TxCmdFlags) (a : BitVec 16) :
    txCmdFlagsOf (txCmdWord p f a) = f := by
  simp only [txCmdFlagsOf, txCmdWord_seq, txCmdWord_cmdType]

/-- 41_decoder.md R113: what the RX layout makes of a TXCMD word's fields. -/
theorem rxEvtFlagsOf_txCmdWord (p : Port) (f : TxCmdFlags) (a : BitVec 16) (e : EventType) :
    rxEvtFlagsOf (txCmdWord p f a) e =
      { selfGen := a.getLsbD 15, seq := f.seq, evtType := e, pcieIntr := f.cmdType.getLsbD 4,
        qsel := qselOf (f.cmdType.extractLsb' 5 2) } := by
  simp only [rxEvtFlagsOf, txCmdWord_rxSelfGen, txCmdWord_seq, txCmdWord_rxPcieIntr, txCmdWord_rxQsel]

/-! ### Byte order -/

@[simp] theorem fromLe32_le32 (w : Word) :
    fromLe32 (field w 7 0) (field w 15 8) (field w 23 16) (field w 31 24) = w := by
  apply BitVec.eq_of_getLsbD_eq
  intro i hi
  simp only [fromLe32, BitVec.getLsbD_or, getLsbD_ins, getLsbD_field]
  interval_cases i <;> simp

theorem le32_fromLe32 (b0 b1 b2 b3 : Byte) : le32 (fromLe32 b0 b1 b2 b3) = [b0, b1, b2, b3] := by
  simp only [le32, List.cons.injEq, and_true]
  refine ⟨?_, ?_, ?_, ?_⟩ <;>
  · apply BitVec.eq_of_getLsbD_eq
    intro i hi
    simp only [fromLe32, BitVec.getLsbD_or, getLsbD_ins, getLsbD_field]
    interval_cases i <;> simp

@[simp] theorem le32_length (w : Word) : (le32 w).length = 4 := rfl

end Sys2Proof
end

