-- ==== Sys2Proof/Laws/State.lean ====
section
/-! SUPPORT. Laws/State.lean: what each update of the state does to each field. -/

namespace Sys2Proof.Machine

variable (s : State) (r : Response) (b : BufId) (buf : Buffer) (h : Word)

@[simp] theorem State.respond_inputs : (s.respond r).inputs = s.inputs := rfl
@[simp] theorem State.respond_buffers : (s.respond r).buffers = s.buffers := rfl
@[simp] theorem State.respond_inProgress : (s.respond r).inProgress = s.inProgress := rfl
@[simp] theorem State.respond_responses : (s.respond r).responses = r :: s.responses := rfl
@[simp] theorem State.respond_freeCount : (s.respond r).freeCount = s.freeCount := rfl
@[simp] theorem State.respond_buffer : (s.respond r).buffer b = s.buffer b := rfl
@[simp] theorem State.respond_busy : (s.respond r).busy b = s.busy b := rfl

@[simp] theorem State.setBuffer_inputs : (s.setBuffer b buf).inputs = s.inputs := rfl
@[simp] theorem State.setBuffer_buffers : (s.setBuffer b buf).buffers = s.buffers.set b buf := rfl
@[simp] theorem State.setBuffer_inProgress : (s.setBuffer b buf).inProgress = s.inProgress := rfl
@[simp] theorem State.setBuffer_responses : (s.setBuffer b buf).responses = s.responses := rfl
@[simp] theorem State.setBuffer_freeCount : (s.setBuffer b buf).freeCount = s.freeCount := rfl

@[simp] theorem State.answerEnc_inputs : (s.answerEnc b buf h).inputs = s.inputs := rfl
@[simp] theorem State.answerEnc_buffers :
    (s.answerEnc b buf h).buffers = s.buffers.set b (encCommon buf h) := rfl
@[simp] theorem State.answerEnc_inProgress : (s.answerEnc b buf h).inProgress = s.inProgress := rfl
@[simp] theorem State.answerEnc_responses :
    (s.answerEnc b buf h).responses = .enc (encCommon buf h) :: s.responses := rfl
@[simp] theorem State.answerEnc_freeCount : (s.answerEnc b buf h).freeCount = s.freeCount := rfl

@[simp] theorem State.abandon_inProgress : s.abandon.inProgress = [] := rfl

theorem State.spoil_fields (q : Request) :
    (s.spoil q).inputs = s.inputs ∧ (s.spoil q).inProgress = s.inProgress ∧ (s.spoil q).responses = s.responses := by
  unfold State.spoil; split <;> exact ⟨rfl, rfl, rfl⟩

theorem State.foldl_spoil_fields (qs : List Request) :
    (qs.foldl State.spoil s).inputs = s.inputs ∧ (qs.foldl State.spoil s).responses = s.responses := by
  induction qs generalizing s with
  | nil => exact ⟨rfl, rfl⟩
  | cons q qs ih =>
    obtain ⟨hi, -, hr⟩ := s.spoil_fields q
    exact ⟨(ih _).1.trans hi, (ih _).2.trans hr⟩

@[simp] theorem State.abandon_inputs : s.abandon.inputs = s.inputs := (s.foldl_spoil_fields s.inProgress).1
@[simp] theorem State.abandon_responses : s.abandon.responses = s.responses := (s.foldl_spoil_fields s.inProgress).2

end Sys2Proof.Machine
end

