-- ==== Sys2Proof/Laws/Memory.lean ====
section
/-! SUPPORT. Laws/Memory.lean: reads after writes, the canonical form, and the lengths of padded buffers. -/

namespace Sys2Proof.Machine

/-! ### The buffers by handle -/

theorem Memory.entry_nil (b : BufId) : Memory.entry b [] = [] := rfl

theorem Memory.entry_of_ne_nil (b : BufId) {buf : Buffer} (h : buf ≠ []) : Memory.entry b buf = [(b, buf)] := by
  cases buf with
  | nil => exact absurd rfl h
  | cons x xs => rfl

theorem Memory.mem_entry {b : BufId} {buf : Buffer} {e : BufId × Buffer} (h : e ∈ Memory.entry b buf) :
    e = (b, buf) ∧ buf ≠ [] := by
  cases buf with
  | nil => simp [Memory.entry] at h
  | cons x xs => simpa [Memory.entry] using h

theorem Memory.get_entry_append_ne {b c : BufId} (h : b ≠ c) (buf : Buffer) (m : Memory) :
    Memory.get (Memory.entry b buf ++ m) c = Memory.get m c := by
  cases buf with
  | nil => rfl
  | cons x xs => simp [Memory.entry, Memory.get, h]

/-- A write leaves every other buffer alone. -/
theorem Memory.get_set_ne (m : Memory) {b c : BufId} (h : b ≠ c) (buf : Buffer) :
    (Memory.set m b buf).get c = m.get c := by
  induction m with
  | nil => simpa [Memory.set] using Memory.get_entry_append_ne h buf []
  | cons e m ih =>
    obtain ⟨d, old⟩ := e
    simp only [Memory.set]
    split
    · exact Memory.get_entry_append_ne h buf _
    · split
      · rename_i hb; subst hb
        rw [Memory.get_entry_append_ne h]; simp [Memory.get, h]
      · simp only [Memory.get, ih]

/-- A buffer with bytes reads back as written. -/
theorem Memory.get_set_self_of_ne_nil (m : Memory) (b : BufId) {buf : Buffer} (h : buf ≠ []) :
    (Memory.set m b buf).get b = buf := by
  induction m with
  | nil => simp [Memory.set, Memory.entry_of_ne_nil b h, Memory.get]
  | cons e m ih =>
    obtain ⟨d, old⟩ := e
    simp only [Memory.set, Memory.entry_of_ne_nil b h]
    split
    · simp [Memory.get]
    · split
      · simp [Memory.get]
      · rename_i hb; simp [Memory.get, Ne.symm hb, ih]

theorem Memory.get_of_forall_lt {m : Memory} {b : BufId} (h : ∀ e ∈ m, b < e.1) : m.get b = [] := by
  induction m with
  | nil => rfl
  | cons e m ih =>
    have h1 := h e (by simp)
    have : e.1 ≠ b := Nat.ne_of_gt h1
    simp only [Memory.get, this, if_false]
    exact ih fun x hx => h x (by simp [hx])

/-- In canonical form every buffer, the empty one too, reads back as written. -/
theorem Memory.get_set_self {m : Memory} (hm : m.wf) (b : BufId) (buf : Buffer) : (m.set b buf).get b = buf := by
  by_cases h : buf = []
  · subst h
    induction m with
    | nil => rfl
    | cons e m ih =>
      obtain ⟨d, old⟩ := e
      obtain ⟨hp, hn⟩ := hm
      have hp' := List.pairwise_cons.1 hp
      simp only [Memory.set, Memory.entry_nil, List.nil_append]
      split
      · rename_i hb
        refine Memory.get_of_forall_lt fun e he => ?_
        rcases List.mem_cons.1 he with rfl | he
        · exact hb
        · exact Nat.lt_trans hb (hp'.1 e he)
      · split
        · rename_i hb; subst hb
          exact Memory.get_of_forall_lt hp'.1
        · rename_i hb
          simp only [Memory.get, Ne.symm hb, if_false]
          exact ih ⟨hp'.2, fun e he => hn e (by simp [he])⟩
  · exact Memory.get_set_self_of_ne_nil m b h

theorem Memory.mem_set {m : Memory} {b : BufId} {buf : Buffer} {e : BufId × Buffer} (h : e ∈ m.set b buf) :
    (e = (b, buf) ∧ buf ≠ []) ∨ e ∈ m := by
  induction m with
  | nil => exact .inl (Memory.mem_entry h)
  | cons x m ih =>
    obtain ⟨d, old⟩ := x
    simp only [Memory.set] at h
    split at h
    · exact (List.mem_append.1 h).imp_left Memory.mem_entry
    · split at h
      · exact (List.mem_append.1 h).imp Memory.mem_entry (List.mem_cons_of_mem _)
      · rcases List.mem_cons.1 h with rfl | h
        · simp
        · exact (ih h).imp_right (List.mem_cons_of_mem _)

/-- A write keeps the canonical form. -/
theorem Memory.wf_set {m : Memory} (hm : m.wf) (b : BufId) (buf : Buffer) : (m.set b buf).wf := by
  refine ⟨?_, fun e he => ?_⟩
  · induction m with
    | nil => cases buf <;> simp [Memory.set, Memory.entry]
    | cons x m ih =>
      obtain ⟨d, old⟩ := x
      obtain ⟨hp, hn⟩ := hm
      obtain ⟨hd, hp'⟩ := List.pairwise_cons.1 hp
      have hm' : Memory.wf m := ⟨hp', fun e he => hn e (by simp [he])⟩
      simp only [Memory.set]
      split
      · rename_i hb
        refine List.pairwise_append.2 ⟨by cases buf <;> simp [Memory.entry], hp, fun y hy z hz => ?_⟩
        rw [(Memory.mem_entry hy).1]
        rcases List.mem_cons.1 hz with rfl | hz
        · exact hb
        · exact Nat.lt_trans hb (hd z hz)
      · split
        · rename_i hb; subst hb
          refine List.pairwise_append.2 ⟨by cases buf <;> simp [Memory.entry], hp', fun y hy z hz => ?_⟩
          rw [(Memory.mem_entry hy).1]
          exact hd z hz
        · rename_i hb1 hb2
          refine List.pairwise_cons.2 ⟨fun z hz => ?_, ih hm'⟩
          rcases Memory.mem_set hz with ⟨rfl, -⟩ | hz
          · exact Nat.lt_of_le_of_ne (Nat.le_of_not_lt hb1) (Ne.symm hb2)
          · exact hd z hz
  · rcases Memory.mem_set he with ⟨rfl, h⟩ | h
    · exact h
    · exact hm.2 e h

/-- Giving a buffer free bytes keeps the canonical form. -/
theorem State.spoil_wf {s : State} (h : s.buffers.wf) (q : Request) : (s.spoil q).buffers.wf := by
  unfold State.spoil; split
  · exact Memory.wf_set h _ _
  · exact h

/-- Reset keeps the canonical form. -/
theorem State.abandon_wf {s : State} (h : s.buffers.wf) : s.abandon.buffers.wf := by
  have : ∀ (qs : List Request) (s : State), s.buffers.wf → (qs.foldl State.spoil s).buffers.wf := by
    intro qs
    induction qs with
    | nil => exact fun s h => h
    | cons q qs ih => exact fun s h => ih _ (State.spoil_wf h q)
  exact this _ _ h

/-! ### Inside one buffer -/

theorem memRead_eq_some {buf v : Buffer} {addr n : Nat} (h : memRead buf addr n = some v) :
    addr + n ≤ buf.length ∧ v = (buf.drop addr).take n ∧ v.length = n := by
  unfold memRead at h
  split at h
  · rename_i hb
    obtain rfl := Option.some.inj h
    exact ⟨hb, rfl, by simp; omega⟩
  · cases h

theorem memRead_of_le {buf : Buffer} {addr n : Nat} (h : addr + n ≤ buf.length) :
    memRead buf addr n = some ((buf.drop addr).take n) := by simp [memRead, h]

theorem memRead_of_lt {buf : Buffer} {addr n : Nat} (h : buf.length < addr + n) : memRead buf addr n = none := by
  simp [memRead]; omega

/-- What was written reads back (20_memory.md R34). -/
theorem memRead_memWrite {buf v buf' : Buffer} {addr : Nat} (h : memWrite buf addr v = some buf') :
    memRead buf' addr v.length = some v := by
  unfold memWrite at h
  split at h
  · rename_i hb
    obtain rfl := Option.some.inj h
    have ha : addr ≤ buf.length := by omega
    rw [memRead_of_le (by simp; omega)]
    simp [ha]
  · cases h

/-! ### Lengths -/

/-- The closed form of 40_encoder.md R79. -/
theorem roundUp_four (x : Nat) : roundUp x 4 = (x + 3) - (x + 3) % 4 := by unfold roundUp; omega

theorem le_roundUp_four (x : Nat) : x ≤ roundUp x 4 := by unfold roundUp; omega

theorem roundUp_four_lt (x : Nat) : roundUp x 4 < x + 4 := by unfold roundUp; omega

theorem roundUp_four_mod (x : Nat) : roundUp x 4 % 4 = 0 := by unfold roundUp; omega

/-- 40_encoder.md R81: the bound on the rounded length is the bound TX_MAX_LEN on the length. -/
theorem roundUp_four_le_iff (x : Nat) : roundUp x 4 ≤ 0xFFFF ↔ x ≤ 65532 := by unfold roundUp; omega

/-- The closed form of 40_encoder.md R83. -/
theorem padLen_eq (l : Nat) : padLen l = (4 - l % 4) % 4 + 4 := by unfold padLen roundUp; omega

/-- The pad is what fills the payload to its aligned length, and the 4-byte trailer (40_encoder.md R88). -/
theorem padLen_eq_add (l : Nat) : padLen l = (roundUp l 4 - l) + 4 := by unfold padLen roundUp; omega

theorem encCommon_eq (payload : Buffer) (h : Word) :
    encCommon payload h = le32 h ++ payload ++ zeros (padLen payload.length) := by
  simp only [encCommon, prepend, append, padLen, List.length_append, le32_length]
  rw [Nat.add_comm 4 payload.length]

theorem encCommon_ne_nil (payload : Buffer) (h : Word) : encCommon payload h ≠ [] := by
  rw [encCommon_eq]; simp [le32]

theorem encCommon_length (payload : Buffer) (h : Word) :
    (encCommon payload h).length = roundUp payload.length 4 + 8 := by
  have := le_roundUp_four payload.length
  rw [encCommon_eq, padLen_eq_add]; simp [zeros]; omega

end Sys2Proof.Machine
end

