-- ==== Sys2Proof/Laws/Words.lean ====
section
/-! SUPPORT. Laws/Words.lean: which codes the enum readers accept, and every word put together again from its own
fields. -/

namespace Sys2Proof

/-! ### Codes -/

theorem portOf?_none_iff : ∀ c : BitVec 3, portOf? c = none ↔ c = 7 := by decide

theorem portOf?_discard_iff : ∀ c : BitVec 3, portOf? c = some .discard ↔ c = 6 := by decide

theorem typeOf?_none_iff : ∀ c : BitVec 2, typeOf? c = none ↔ (c = 2 ∨ c = 3) := by decide

theorem typeOf?_packet_iff : ∀ c : BitVec 2, typeOf? c = some .packet ↔ c = 0 := by decide

theorem typeOf?_command_iff : ∀ c : BitVec 2, typeOf? c = some .command ↔ c = 1 := by decide

/-! ### Words from their fields -/

theorem badTypeWord_field (h : Word) : badTypeWord (field h 31 30) (field h 29 0) = h := by
  apply BitVec.eq_of_getLsbD_eq
  intro i hi
  simp only [badTypeWord, BitVec.getLsbD_or, getLsbD_ins, getLsbD_field]
  interval_cases i <;> simp

theorem portWord_field (h : Word) (t : TransferType) (ht : typeCode t = field h 31 30) :
    portWord t (field h 29 27) (field h 26 0) = h := by
  apply BitVec.eq_of_getLsbD_eq
  intro i hi
  simp only [portWord, BitVec.getLsbD_or, getLsbD_ins, getLsbD_field, ht]
  interval_cases i <;> simp

theorem evtCodeWord_field (h : Word) (p : Port) (ht : field h 31 30 = 1) (hp : portCode p = field h 29 27) :
    evtCodeWord p (field h 26 24) (field h 23 20) (field h 19 0) = h := by
  have ht' : typeCode .command = field h 31 30 := ht.symm
  apply BitVec.eq_of_getLsbD_eq
  intro i hi
  simp only [evtCodeWord, BitVec.getLsbD_or, getLsbD_ins, getLsbD_field, ht', hp]
  interval_cases i <;> simp

theorem rxPktWord_field (h : Word) (p : Port) (ht : field h 31 30 = 0) (hp : portCode p = field h 29 27) :
    rxPktWord ⟨p, rxPktFlagsOf h, field h 15 14, field h 13 0⟩ = h := by
  have ht' : typeCode .packet = field h 31 30 := ht.symm
  have hq : qselCode (rxPktFlagsOf h).qsel = field h 26 25 := qselCode_qselOf _
  have hm : (rxPktFlagsOf h).macHdrLen = field h 23 21 := rfl
  apply BitVec.eq_of_getLsbD_eq
  intro i hi
  simp only [rxPktWord, insFlag, BitVec.getLsbD_or, getLsbD_ins, getLsbD_field, ht', hp, hq, hm]
  interval_cases i <;> simp [rxPktFlagsOf]

theorem rxEvtWord_field (h : Word) (p : Port) (e : EventType) (ht : field h 31 30 = 1)
    (hp : portCode p = field h 29 27) (he : eventCode e = field h 23 20) :
    rxEvtWord ⟨p, rxEvtFlagsOf h e, field h 14 14, field h 13 0⟩ = h := by
  have ht' : typeCode .command = field h 31 30 := ht.symm
  have hq : qselCode (rxEvtFlagsOf h e).qsel = field h 26 25 := qselCode_qselOf _
  have hs : (rxEvtFlagsOf h e).seq = field h 19 16 := rfl
  have he' : eventCode (rxEvtFlagsOf h e).evtType = field h 23 20 := he
  apply BitVec.eq_of_getLsbD_eq
  intro i hi
  simp only [rxEvtWord, insFlag, BitVec.getLsbD_or, getLsbD_ins, getLsbD_field, ht', hp, hq, he', hs]
  interval_cases i <;> simp [rxEvtFlagsOf]

theorem txPktWord_field (h : Word) (p : Port) (ht : field h 31 30 = 0) (hp : portCode p = field h 29 27)
    (h18 : h.getLsbD 18 = false) (h22 : h.getLsbD 22 = false) (h23 : h.getLsbD 23 = false) :
    txPktWord p (txPktFlagsOf h) (field h 15 0) = h := by
  have ht' : typeCode .packet = field h 31 30 := ht.symm
  have hq : qselCode (txPktFlagsOf h).qsel = field h 26 25 := qselCode_qselOf _
  apply BitVec.eq_of_getLsbD_eq
  intro i hi
  simp only [txPktWord, insFlag, BitVec.getLsbD_or, getLsbD_ins, getLsbD_field, ht', hp, hq]
  interval_cases i <;> simp [txPktFlagsOf]
  · simpa using h18
  · simpa using h22
  · simpa using h23

theorem txCmdWord_field (h : Word) (p : Port) (ht : field h 31 30 = 1) (hp : portCode p = field h 29 27) :
    txCmdWord p (txCmdFlagsOf h) (field h 15 0) = h := by
  have ht' : typeCode .command = field h 31 30 := ht.symm
  have hs : (txCmdFlagsOf h).seq = field h 19 16 := rfl
  have hc : (txCmdFlagsOf h).cmdType = field h 26 20 := rfl
  apply BitVec.eq_of_getLsbD_eq
  intro i hi
  simp only [txCmdWord, BitVec.getLsbD_or, getLsbD_ins, getLsbD_field, ht', hp, hs, hc]
  interval_cases i <;> simp

theorem badEvt8Code_field (h : Word) (hb : h.getLsbD 23 = true) : badEvt8Code (field h 22 20) = field h 23 20 := by
  apply BitVec.eq_of_getLsbD_eq
  intro i hi
  simp only [badEvt8Code, BitVec.getLsbD_or, BitVec.getLsbD_setWidth, getLsbD_field]
  interval_cases i <;> simp
  simpa using hb.symm

/-- Of the reserved EventType codes only 7 has bit 3 clear. -/
theorem eventField_eq_seven (h : Word) (hb : h.getLsbD 23 = false) (h7 : 7 ≤ (field h 23 20).toNat) :
    field h 23 20 = 7 := by
  have h3 : (field h 23 20).getLsbD 3 = false := by rw [getLsbD_field]; simpa using hb
  generalize field h 23 20 = v at *
  clear hb h
  revert v; decide

/-! ### The decoder on a header and a tail -/

theorem decodeRx_cons (b : BufId) (b0 b1 b2 b3 : Byte) (rest : Buffer) :
    decodeRx b (b0 :: b1 :: b2 :: b3 :: rest) = decodeRxWord b (fromLe32 b0 b1 b2 b3) rest.length := rfl

theorem decodeRx_le32 (b : BufId) (w : Word) (rest : Buffer) :
    decodeRx b (le32 w ++ rest) = decodeRxWord b w rest.length := by
  simp only [le32, List.cons_append, List.nil_append, decodeRx, fromLe32_le32]

end Sys2Proof
end

