-- ==== Sys2Proof/Laws/Exec.lean ====
section
/-! SUPPORT. Laws/Exec.lean: what each shared operation, each meaning and each step can answer, said once. -/

namespace Sys2Proof.Machine

/-! ### Shared operations -/

theorem State.owned_of_free {s : State} {b : BufId} (h : s.busy b = false) (k : Buffer → Result) :
    s.owned b k = k (s.buffer b) := by simp [State.owned, h]

theorem State.owned_of_busy {s : State} {b : BufId} (h : s.busy b = true) (k : Buffer → Result) :
    s.owned b k = .refused .bufferBusy := by simp [State.owned, h]

theorem State.owned_next {s t : State} {b : BufId} {k : Buffer → Result} (h : s.owned b k = .next t) :
    s.busy b = false ∧ k (s.buffer b) = .next t := by
  unfold State.owned at h
  split at h
  · cases h
  · rename_i hb; exact ⟨by simpa using hb, h⟩

theorem State.owned_fault {s : State} {b : BufId} {k : Buffer → Result} {x : Fault} (h : s.owned b k = .fault x) :
    k (s.buffer b) = .fault x := by
  unfold State.owned at h
  split at h
  · cases h
  · exact h

theorem State.owned_refused {s : State} {b : BufId} {k : Buffer → Result} {x : Refusal}
    (h : s.owned b k = .refused x) :
    (s.busy b = true ∧ x = .bufferBusy) ∨ (s.busy b = false ∧ k (s.buffer b) = .refused x) := by
  unfold State.owned at h
  split at h
  · rename_i hb; cases h; exact .inl ⟨hb, rfl⟩
  · rename_i hb; exact .inr ⟨by simpa using hb, h⟩

theorem withPktFlags_next {flags : TxFlags} {k : TxPktFlags → Result} {t : State}
    (h : withPktFlags flags k = .next t) : ∃ f, flags = .pktTx f ∧ k f = .next t := by
  cases flags with
  | pktTx f => exact ⟨f, rfl, h⟩
  | cmdTx f => cases h

theorem withCmdFlags_next {flags : TxFlags} {k : TxCmdFlags → Result} {t : State}
    (h : withCmdFlags flags k = .next t) : ∃ f, flags = .cmdTx f ∧ k f = .next t := by
  cases flags with
  | cmdTx f => exact ⟨f, rfl, h⟩
  | pktTx f => cases h

theorem encodePacket_next {b : BufId} {port : Port} {f : TxPktFlags} {payload : Buffer} {s t : State}
    (h : encodePacket b port f payload s = .next t) :
    admitSize payload.length .packet = true ∧
      t = s.answerEnc b payload (txPktWord port f (alignedLen payload.length)) := by
  unfold encodePacket at h
  split at h
  · rename_i ha; cases h; exact ⟨ha, rfl⟩
  · cases h

theorem encodeCommand_next {b : BufId} {port : Port} {f : TxCmdFlags} {payload : Buffer} {s t : State}
    (h : encodeCommand b port f payload s = .next t) :
    admitSize payload.length .command = true ∧
      t = s.answerEnc b payload (txCmdWord port f (alignedLen payload.length)) := by
  unfold encodeCommand at h
  split at h
  · rename_i ha; cases h; exact ⟨ha, rfl⟩
  · cases h

theorem answerDec_next {b : BufId} {o : DecOutcome} {s t : State} (h : answerDec b o s = .next t) :
    s.busy b = false ∧ t = s.respond (.dec o) := by
  obtain ⟨hb, hk⟩ := State.owned_next h
  cases hk; exact ⟨hb, rfl⟩

theorem answerDec_not_fault {b : BufId} {o : DecOutcome} {s : State} {x : Fault} : answerDec b o s ≠ .fault x :=
  fun h => nomatch State.owned_fault h

theorem answerFrame_next {b : BufId} {hdr : RxHeader} {s t : State} (h : answerFrame b hdr s = .next t) :
    s.busy b = false ∧ 4 + hdr.length.toNat ≤ (s.buffer b).length ∧
      t = s.respond (.dec (.ok (frameOf hdr (((s.buffer b).drop 4).take hdr.length.toNat)))) := by
  obtain ⟨hb, hk⟩ := State.owned_next h
  split at hk
  · cases hk
  · rename_i slice hs
    obtain ⟨hle, rfl, -⟩ := memRead_eq_some hs
    cases hk; exact ⟨hb, hle, rfl⟩

theorem answerFrame_of_le {b : BufId} {hdr : RxHeader} {s : State} (hb : s.busy b = false)
    (h : 4 + hdr.length.toNat ≤ (s.buffer b).length) :
    answerFrame b hdr s =
      .next (s.respond (.dec (.ok (frameOf hdr (((s.buffer b).drop 4).take hdr.length.toNat))))) := by
  simp only [answerFrame, State.owned_of_free hb, memRead_of_le h]

theorem answerFrame_fault {b : BufId} {hdr : RxHeader} {s : State} {x : Fault} (h : answerFrame b hdr s = .fault x) :
    (s.buffer b).length < 4 + hdr.length.toNat := by
  have hk := State.owned_fault h
  by_contra hle
  rw [memRead_of_le (by omega)] at hk
  cases hk

/-! ### The encoder's size bound and its answer -/

theorem alignedLen_toNat {l : Nat} (h : l ≤ 65532) : (alignedLen l).toNat = roundUp l 4 := by
  have := (roundUp_four_le_iff l).2 h
  simp only [alignedLen, BitVec.toNat_ofNat]; omega

theorem admitSize_packet (l : Nat) : admitSize l .packet = true ↔ l ≤ 65532 := by
  have := roundUp_four_le_iff l
  simp [admitSize] at *; omega

theorem admitSize_command (l : Nat) :
    admitSize l .command = true ↔ l ≤ 65532 ∧ l ≤ Config.cmdMaxLen.val := by
  have := roundUp_four_le_iff l
  simp [admitSize] at *; omega

@[simp] theorem State.answerEnc_buffer (s : State) (b : BufId) (payload : Buffer) (w : Word) :
    (s.answerEnc b payload w).buffer b = encCommon payload w :=
  Memory.get_set_self_of_ne_nil _ _ (encCommon_ne_nil _ _)

/-! ### Every meaning -/

/-- What an operation can do when it answers a next state: grow its own buffer and give the encoder's response, or give
responses and change nothing else. -/
theorem exec_next_cases {i : Instr} {s t : State} (h : exec i s = .next t) :
    (∃ b w, i.direction = .tx ∧ i.buf? = some b ∧ s.busy b = false ∧ t = s.answerEnc b (s.buffer b) w) ∨
    (i.direction = .rx ∧ ∃ new, new ≠ [] ∧ t = { s with responses := new ++ s.responses }) := by
  cases i with
  | encPkt b port flags =>
    simp only [exec, execEncPkt] at h
    obtain ⟨hb, hk⟩ := State.owned_next h
    obtain ⟨f, rfl, hk⟩ := withPktFlags_next hk
    exact .inl ⟨b, _, rfl, rfl, hb, (encodePacket_next hk).2⟩
  | encCmd b port flags =>
    simp only [exec, execEncCmd] at h
    obtain ⟨hb, hk⟩ := State.owned_next h
    obtain ⟨f, rfl, hk⟩ := withCmdFlags_next hk
    exact .inl ⟨b, _, rfl, rfl, hb, (encodeCommand_next hk).2⟩
  | encData b f =>
    simp only [exec, execEncData] at h
    obtain ⟨hb, hk⟩ := State.owned_next h
    exact .inl ⟨b, _, rfl, rfl, hb, (encodePacket_next hk).2⟩
  | decTooShort b n => exact .inr ⟨rfl, [_], by simp, (answerDec_next h).2⟩
  | decBadType b type rest => exact .inr ⟨rfl, [_], by simp, (answerDec_next h).2⟩
  | decDiscard b type rest => exact .inr ⟨rfl, [_], by simp, (answerDec_next h).2⟩
  | decBadPort b type rest => exact .inr ⟨rfl, [_], by simp, (answerDec_next h).2⟩
  | decEvtBadEvt7 b port hi lo => exact .inr ⟨rfl, [_], by simp, (answerDec_next h).2⟩
  | decEvtBadEvt8 b port hi v lo => exact .inr ⟨rfl, [_], by simp, (answerDec_next h).2⟩
  | decOverflow b hdr available => exact .inr ⟨rfl, [_], by simp, (answerDec_next h).2⟩
  | decPkt b hdr => exact .inr ⟨rfl, [_], by simp, (answerFrame_next h).2.2⟩
  | decEvt b hdr => exact .inr ⟨rfl, [_], by simp, (answerFrame_next h).2.2⟩
  | dispatch o => cases h; exact .inr ⟨rfl, [_], by simp, rfl⟩
  | recv b =>
    simp only [exec, execRecv] at h
    obtain ⟨-, hk⟩ := State.owned_next h
    cases hk; exact .inr ⟨rfl, [_, _], by simp, rfl⟩

/-- What an encode operation did, when it answers a next state: it was within the bound, and it gave `answerEnc` of the
operation's own word. -/
theorem exec_tx_next {s t : State} {i : Instr} {b : BufId} (hd : i.direction = .tx) (hb : i.buf? = some b)
    (h : exec i s = .next t) :
    s.busy b = false ∧ (s.buffer b).length ≤ 65532 ∧
      ∃ w, i.word? (alignedLen (s.buffer b).length) = some w ∧ field w 15 0 = alignedLen (s.buffer b).length ∧
        t = s.answerEnc b (s.buffer b) w := by
  cases i with
  | encPkt b' port flags =>
    cases hb
    simp only [exec, execEncPkt] at h
    obtain ⟨hb, hk⟩ := State.owned_next h
    obtain ⟨f, rfl, hk⟩ := withPktFlags_next hk
    obtain ⟨ha, rfl⟩ := encodePacket_next hk
    exact ⟨hb, (admitSize_packet _).1 ha, _, rfl, txPktWord_length .., rfl⟩
  | encCmd b' port flags =>
    cases hb
    simp only [exec, execEncCmd] at h
    obtain ⟨hb, hk⟩ := State.owned_next h
    obtain ⟨f, rfl, hk⟩ := withCmdFlags_next hk
    obtain ⟨ha, rfl⟩ := encodeCommand_next hk
    exact ⟨hb, ((admitSize_command _).1 ha).1, _, rfl, txCmdWord_length .., rfl⟩
  | encData b' f =>
    cases hb
    simp only [exec, execEncData] at h
    obtain ⟨hb, hk⟩ := State.owned_next h
    obtain ⟨ha, rfl⟩ := encodePacket_next hk
    exact ⟨hb, (admitSize_packet _).1 ha, _, rfl, txPktWord_length .., rfl⟩
  | _ => cases hd

/-- An operation keeps what waits and what is in progress. -/
theorem exec_next_frame {i : Instr} {s t : State} (h : exec i s = .next t) :
    t.inputs = s.inputs ∧ t.inProgress = s.inProgress ∧ t.freeCount = s.freeCount := by
  obtain ⟨b, w, -, -, -, rfl⟩ | ⟨-, new, -, rfl⟩ := exec_next_cases h <;> exact ⟨rfl, rfl, rfl⟩

/-- An operation keeps the canonical form of the buffers. -/
theorem exec_next_wf {i : Instr} {s t : State} (h : exec i s = .next t) (hw : s.buffers.wf) : t.buffers.wf := by
  obtain ⟨b, w, -, -, -, rfl⟩ | ⟨-, new, -, rfl⟩ := exec_next_cases h
  · exact Memory.wf_set hw _ _
  · exact hw

/-- An operation leaves every buffer but its own. -/
theorem exec_next_buffer_ne {i : Instr} {s t : State} {c : BufId} (h : exec i s = .next t) (hc : i.buf? ≠ some c) :
    t.buffer c = s.buffer c := by
  obtain ⟨b, w, -, hb, -, rfl⟩ | ⟨-, new, -, rfl⟩ := exec_next_cases h
  · exact Memory.get_set_ne _ (fun hbc => hc (by rw [hb, hbc])) _
  · rfl

/-- The only operations that can fault: a frame row whose payload bytes are not in the buffer. -/
theorem exec_fault_cases {i : Instr} {s : State} {x : Fault} (h : exec i s = .fault x) :
    (∃ b hdr, i = .decPkt b hdr ∧ (s.buffer b).length < 4 + hdr.length.toNat) ∨
    (∃ b hdr, i = .decEvt b hdr ∧ (s.buffer b).length < 4 + hdr.length.toNat) := by
  cases i with
  | encPkt b port flags =>
    simp only [exec, execEncPkt] at h
    have hk := State.owned_fault h
    cases flags with
    | pktTx f => simp only [withPktFlags, encodePacket] at hk; split at hk <;> cases hk
    | cmdTx f => cases hk
  | encCmd b port flags =>
    simp only [exec, execEncCmd] at h
    have hk := State.owned_fault h
    cases flags with
    | cmdTx f => simp only [withCmdFlags, encodeCommand] at hk; split at hk <;> cases hk
    | pktTx f => cases hk
  | encData b f =>
    simp only [exec, execEncData] at h
    have hk := State.owned_fault h
    simp only [encodePacket] at hk; split at hk <;> cases hk
  | decTooShort b n => exact absurd h answerDec_not_fault
  | decBadType b type rest => exact absurd h answerDec_not_fault
  | decDiscard b type rest => exact absurd h answerDec_not_fault
  | decBadPort b type rest => exact absurd h answerDec_not_fault
  | decEvtBadEvt7 b port hi lo => exact absurd h answerDec_not_fault
  | decEvtBadEvt8 b port hi v lo => exact absurd h answerDec_not_fault
  | decOverflow b hdr available => exact absurd h answerDec_not_fault
  | decPkt b hdr => exact .inl ⟨b, hdr, rfl, answerFrame_fault h⟩
  | decEvt b hdr => exact .inr ⟨b, hdr, rfl, answerFrame_fault h⟩
  | dispatch o => cases h
  | recv b =>
    simp only [exec, execRecv] at h
    exact nomatch State.owned_fault h

/-! ### The decoder's choice of a row -/

/-- A frame row is chosen only when its D payload bytes are in the buffer (41_decoder.md R105, R109). -/
theorem decodeRx_frame_fits {b : BufId} {buf : Buffer} :
    (∀ b' hdr, decodeRx b buf = .decPkt b' hdr → b' = b ∧ 4 + hdr.length.toNat ≤ buf.length) ∧
    (∀ b' hdr, decodeRx b buf = .decEvt b' hdr → b' = b ∧ 4 + hdr.length.toNat ≤ buf.length) := by
  constructor <;> intro b' hdr h <;>
  · unfold decodeRx at h
    split at h
    · unfold decodeRxWord decodeRxPkt decodeRxEvt at h
      simp only [List.length_cons]
      split at h
      · cases h
      · cases h
      · cases h
      · dsimp only at h
        split at h
        · cases h
        · first
            | (cases h; exact ⟨rfl, by dsimp only; omega⟩)
            | cases h
      · split at h
        · split at h <;> cases h
        · dsimp only at h
          split at h
          · cases h
          · first
              | (cases h; exact ⟨rfl, by dsimp only; omega⟩)
              | cases h
    · cases h

/-- Whichever row a decode request falls under works on the request's buffer. -/
theorem decodeRx_buf? (b : BufId) (buf : Buffer) : (decodeRx b buf).buf? = some b := by
  unfold decodeRx
  split
  · unfold decodeRxWord decodeRxPkt decodeRxEvt
    dsimp only
    (repeat' split) <;> rfl
  · rfl

/-- The operation a request asks for works on the request's buffer. -/
theorem State.fetch_buf? (s : State) (r : Request) : (s.fetch r).buf? = r.buf? := by
  cases r with
  | encode b port ttype flags => cases ttype <;> rfl
  | encData b f => rfl
  | decode b => exact decodeRx_buf? b _
  | dispatch o => rfl
  | recv b => rfl

/-- The operation a request asks for depends on its buffer's bytes alone. -/
theorem State.fetch_congr {s s' : State} {r : Request} (h : ∀ b, r.buf? = some b → s.buffer b = s'.buffer b) :
    s.fetch r = s'.fetch r := by
  cases r with
  | encode b port ttype flags => cases ttype <;> rfl
  | encData b f => rfl
  | decode b => simp only [State.fetch, h b rfl]
  | dispatch o => rfl
  | recv b => rfl

/-- The operation that is run for a request never faults. -/
theorem exec_fetch_not_fault {s s' : State} {r : Request} {x : Fault} (hs : s'.buffers = s.buffers) :
    exec (s.fetch r) s' ≠ .fault x := by
  intro h
  have hbuf : ∀ b, s'.buffer b = s.buffer b := fun b => by simp [State.buffer, hs]
  have key := exec_fault_cases h
  simp only [hbuf] at key
  cases r with
  | encode b port ttype flags => cases ttype <;> simp [State.fetch] at key
  | encData b f => simp [State.fetch] at key
  | dispatch o => simp [State.fetch] at key
  | recv b => simp [State.fetch] at key
  | decode b =>
    simp only [State.fetch] at key
    obtain ⟨b', hdr, hi, hlt⟩ | ⟨b', hdr, hi, hlt⟩ := key
    · obtain ⟨rfl, hle⟩ := decodeRx_frame_fits.1 _ _ hi; omega
    · obtain ⟨rfl, hle⟩ := decodeRx_frame_fits.2 _ _ hi; omega

/-! ### Concurrent requests -/

/-- A concurrent request begins exactly where its operation would be answered, and is refused where it would be. -/
theorem State.start_cases (s : State) (r : Request) :
    ((∃ u, exec (s.fetch r) s = .next u) ∧ s.start r = .next { s with inProgress := s.inProgress ++ [r] }) ∨
    (∃ x, exec (s.fetch r) s = .refused x ∧ s.start r = .refused x) := by
  unfold State.start
  cases h : exec (s.fetch r) s with
  | next u => exact .inl ⟨⟨u, rfl⟩, rfl⟩
  | fault x => exact absurd h (exec_fetch_not_fault rfl)
  | refused x => exact .inr ⟨x, rfl, rfl⟩

theorem State.complete_of_none {s : State} {k : Nat} (h : s.inProgress[k]? = none) : s.complete k = .next s := by
  simp [State.complete, h]

theorem State.complete_of_some {s : State} {k : Nat} {r : Request} (h : s.inProgress[k]? = some r) :
    s.complete k = exec (s.fetch r) { s with inProgress := s.inProgress.eraseIdx k } := by simp [State.complete, h]

theorem State.serveOldest_nil {s : State} (h : s.inProgress = []) : s.serveOldest = .next s :=
  State.complete_of_none (by simp [h])

theorem State.serveOldest_cons {s : State} {r : Request} {younger : List Request} (h : s.inProgress = r :: younger) :
    s.serveOldest = exec (s.fetch r) { s with inProgress := younger } := by
  rw [State.serveOldest, State.complete_of_some (r := r) (by simp [h])]; simp [h]

/-! ### DEC as R96 writes it -/

theorem dec_of_short {buf : Buffer} (h : buf.length < 4) : dec buf = .err (.tooShort buf.length) := by
  simp [dec, memRead_of_lt (show buf.length < 0 + 4 by omega)]

theorem dec_cons (b0 b1 b2 b3 : Byte) (rest : Buffer) :
    dec (b0 :: b1 :: b2 :: b3 :: rest) = decWord (fromLe32 b0 b1 b2 b3) (b0 :: b1 :: b2 :: b3 :: rest) := by
  simp [dec, memRead]

theorem dec_le32 (h : Word) (rest : Buffer) : dec (le32 h ++ rest) = decWord h (le32 h ++ rest) := by
  simp only [le32, List.cons_append, List.nil_append]; rw [dec_cons, fromLe32_le32]

end Sys2Proof.Machine
end

