-- ==== Sys2Proof/Laws/PerInstr.lean ====
section
/-! SUPPORT. Laws/PerInstr.lean: the family TableRow, one lemma per constructor of Instr. The word a well-formed operation
encodes to has the fixed bits of its row in spec/opcode_table.json. -/

namespace Sys2Proof.Laws.TableRow

/-- The header word of a well-formed operation matches its row's `match` under its `mask`. -/
def Statement (i : Instr) : Prop :=
  i.wellFormed = true → ∀ (a : BitVec 16) (w mtch mask : Word),
    i.word? a = some w → tableRow? i = some (mtch, mask) → w &&& mask = mtch

theorem txPktWord_fixed (p : Port) (f : TxPktFlags) (a : BitVec 16) : txPktWord p f a &&& 0xC0C40000 = 0x00000000 := by
  apply BitVec.eq_of_getLsbD_eq
  intro i hi
  simp only [BitVec.getLsbD_and, txPktWord, insFlag, BitVec.getLsbD_or, getLsbD_ins, typeCode]
  interval_cases i <;> simp

theorem txPktWord_wlan_fixed (f : TxPktFlags) (a : BitVec 16) : txPktWord .wlanPort f a &&& 0xF8C40000 = 0x00000000 := by
  apply BitVec.eq_of_getLsbD_eq
  intro i hi
  simp only [BitVec.getLsbD_and, txPktWord, insFlag, BitVec.getLsbD_or, getLsbD_ins, typeCode, portCode]
  interval_cases i <;> simp

theorem txCmdWord_fixed (p : Port) (f : TxCmdFlags) (a : BitVec 16) : txCmdWord p f a &&& 0xC0000000 = 0x40000000 := by
  apply BitVec.eq_of_getLsbD_eq
  intro i hi
  simp only [BitVec.getLsbD_and, txCmdWord, BitVec.getLsbD_or, getLsbD_ins, typeCode]
  interval_cases i <;> simp

theorem rxPktWord_fixed (h : RxPktHeader) : rxPktWord h &&& 0xC0000000 = 0x00000000 := by
  apply BitVec.eq_of_getLsbD_eq
  intro i hi
  simp only [BitVec.getLsbD_and, rxPktWord, insFlag, BitVec.getLsbD_or, getLsbD_ins, typeCode]
  interval_cases i <;> simp

theorem rxEvtWord_fixed (h : RxEvtHeader) : rxEvtWord h &&& 0xC0000000 = 0x40000000 := by
  apply BitVec.eq_of_getLsbD_eq
  intro i hi
  simp only [BitVec.getLsbD_and, rxEvtWord, insFlag, BitVec.getLsbD_or, getLsbD_ins, typeCode]
  interval_cases i <;> simp

theorem badTypeWord_fixed (t : BitVec 2) (r : BitVec 30) (ht : t = 2 ∨ t = 3) :
    badTypeWord t r &&& 0x80000000 = 0x80000000 := by
  apply BitVec.eq_of_getLsbD_eq
  intro i hi
  simp only [BitVec.getLsbD_and, badTypeWord, BitVec.getLsbD_or, getLsbD_ins]
  rcases ht with rfl | rfl <;> interval_cases i <;> simp

theorem portWord_fixed (t : TransferType) (r : BitVec 27) :
    portWord t 6 r &&& 0xB8000000 = 0x30000000 ∧ portWord t 7 r &&& 0xB8000000 = 0x38000000 := by
  constructor <;>
  · apply BitVec.eq_of_getLsbD_eq
    intro i hi
    simp only [BitVec.getLsbD_and, portWord, BitVec.getLsbD_or, getLsbD_ins]
    cases t <;> interval_cases i <;> simp [typeCode]

theorem evtCodeWord_fixed7 (p : Port) (hi : BitVec 3) (lo : BitVec 20) :
    evtCodeWord p hi 7 lo &&& 0xC0F00000 = 0x40700000 := by
  apply BitVec.eq_of_getLsbD_eq
  intro i hi
  simp only [BitVec.getLsbD_and, evtCodeWord, BitVec.getLsbD_or, getLsbD_ins, typeCode]
  interval_cases i <;> simp

theorem evtCodeWord_fixed8 (p : Port) (hi v : BitVec 3) (lo : BitVec 20) :
    evtCodeWord p hi (badEvt8Code v) lo &&& 0xC0800000 = 0x40800000 := by
  apply BitVec.eq_of_getLsbD_eq
  intro i hi
  simp only [BitVec.getLsbD_and, evtCodeWord, BitVec.getLsbD_or, getLsbD_ins, typeCode, badEvt8Code]
  interval_cases i <;> simp

theorem encPkt (b : BufId) (port : Port) (flags : TxFlags) : Statement (.encPkt b port flags) := by
  intro _ a w mtch mask hw hr
  cases hr
  cases flags with
  | pktTx f => cases hw; exact txPktWord_fixed port f a
  | cmdTx f => cases hw

theorem encCmd (b : BufId) (port : Port) (flags : TxFlags) : Statement (.encCmd b port flags) := by
  intro _ a w mtch mask hw hr
  cases hr
  cases flags with
  | cmdTx f => cases hw; exact txCmdWord_fixed port f a
  | pktTx f => cases hw

theorem encData (b : BufId) (flags : TxPktFlags) : Statement (.encData b flags) := by
  intro _ a w mtch mask hw hr
  cases hr; cases hw; exact txPktWord_wlan_fixed flags a

theorem decTooShort (b : BufId) (n : Nat) : Statement (.decTooShort b n) := by
  intro _ a w mtch mask hw hr; cases hr

theorem decBadType (b : BufId) (type : BitVec 2) (rest : BitVec 30) : Statement (.decBadType b type rest) := by
  intro hwf a w mtch mask hw hr
  cases hr; cases hw
  exact badTypeWord_fixed type rest (by simpa [Instr.wellFormed] using hwf)

theorem decDiscard (b : BufId) (type : TransferType) (rest : BitVec 27) : Statement (.decDiscard b type rest) := by
  intro _ a w mtch mask hw hr
  cases hr; cases hw; exact (portWord_fixed type rest).1

theorem decBadPort (b : BufId) (type : TransferType) (rest : BitVec 27) : Statement (.decBadPort b type rest) := by
  intro _ a w mtch mask hw hr
  cases hr; cases hw; exact (portWord_fixed type rest).2

theorem decEvtBadEvt7 (b : BufId) (port : Port) (hi : BitVec 3) (lo : BitVec 20) :
    Statement (.decEvtBadEvt7 b port hi lo) := by
  intro _ a w mtch mask hw hr
  cases hr; cases hw; exact evtCodeWord_fixed7 port hi lo

theorem decEvtBadEvt8 (b : BufId) (port : Port) (hi v : BitVec 3) (lo : BitVec 20) :
    Statement (.decEvtBadEvt8 b port hi v lo) := by
  intro _ a w mtch mask hw hr
  cases hr; cases hw; exact evtCodeWord_fixed8 port hi v lo

theorem decOverflow (b : BufId) (h : RxHeader) (available : Nat) : Statement (.decOverflow b h available) := by
  intro _ a w mtch mask hw hr; cases hr

theorem decPkt (b : BufId) (h : RxPktHeader) : Statement (.decPkt b h) := by
  intro _ a w mtch mask hw hr
  cases hr; cases hw; exact rxPktWord_fixed h

theorem decEvt (b : BufId) (h : RxEvtHeader) : Statement (.decEvt b h) := by
  intro _ a w mtch mask hw hr
  cases hr; cases hw; exact rxEvtWord_fixed h

theorem dispatch (o : DecOutcome) : Statement (.dispatch o) := by
  intro _ a w mtch mask hw hr; cases hr

theorem recv (b : BufId) : Statement (.recv b) := by
  intro _ a w mtch mask hw hr; cases hr

end Sys2Proof.Laws.TableRow
end

