-- ==== Sys2Proof/Laws/Run.lean ====
section
/-! SUPPORT. Laws/Run.lean: the steps of a run, one at a time. -/

namespace Sys2Proof.Machine

theorem run_succ_of_next {s t : State} (h : step s = .next t) (k : Nat) :
    Sys2Proof.core.run (k + 1) s = Sys2Proof.core.run k t := by
  have h' : Sys2Proof.core.step s = .next t := h
  simp only [Host.Core.run, h']

theorem run_succ_of_refused {s : State} {x : Refusal} (h : step s = .refused x) (k : Nat) :
    Sys2Proof.core.run (k + 1) s = .refused x := by
  have h' : Sys2Proof.core.step s = .refused x := h
  simp only [Host.Core.run, h']

/-- A state that a step leaves as it is, a run leaves as it is. -/
theorem run_of_step_self {s : State} (h : step s = .next s) (k : Nat) : Sys2Proof.core.run k s = .next s := by
  induction k with
  | zero => rfl
  | succ k ih => exact (run_succ_of_next h k).trans ih

end Sys2Proof.Machine
end

