-- ==== Sys2Proof/Tests/Slice0.lean ====
section
/-! SUPPORT. Tests/Slice0.lean: the WellFormed smoke test, words written out from the spec's encodings, one-step tests
with the vectors of spec/95_test_vectors.md, and for each obligation with hypotheses a state and operands that meet
them. Expected results are the vectors' or hand calculation from the rule named. -/

namespace Sys2Proof.Tests

open Sys2Proof Sys2Proof.Machine

/-! ### Helpers -/

/-- The next state, if there is one. -/
def next? : Result → Option State
  | .next s => some s
  | .fault _ => none
  | .refused _ => none

/-- The reason of a refusal. -/
def refusal? : Result → Option Refusal
  | .refused r => some r
  | .next _ => none
  | .fault _ => none

/-- The responses of the next state, newest first. -/
def said (r : Result) : Option (List Response) := (next? r).map State.responses

/-- The state after reset, with bytes in buffer 0. -/
def holding (bytes : Buffer) : State := { State.reset with buffers := Memory.set [] 0 bytes }

/-- The state above, with one input waiting. -/
def waiting (bytes : Buffer) (i : Input) : State := { holding bytes with inputs := [i] }

def noPktFlags : TxPktFlags := ⟨false, false, false, false, false, false, .mgmt⟩

def allPktFlags : TxPktFlags := ⟨true, true, true, true, true, true, .edca2⟩

def dataFlags : TxPktFlags := ⟨false, false, true, false, false, false, .edca⟩

def noRxFlags : RxPktFlags := ⟨false, false, false, false, false, 0, false, .mgmt⟩

/-- DEC-03's frame. -/
def dataFrame : DecodedFrame where
  port := .wlanPort
  declaredLength := 12
  flags := .rxPkt { noRxFlags with is80211 := true, qsel := .edca }
  payloadSlice := List.replicate 12 0xAA
  headerWord := 0x0408000C

/-- DEC-08's frame. -/
def eventFrame : DecodedFrame where
  port := .cpuRxPort
  declaredLength := 4
  flags := .rxEvt ⟨true, 3, .cmdDone, false, .mgmt⟩
  payloadSlice := [1, 2, 3, 4]
  headerWord := 0x48038004

/-! ### WellFormed refuses each ill-formed term -/

theorem test_wf_encPkt_command_flags : (Instr.encPkt 0 .wlanPort (.cmdTx ⟨0, 0⟩)).wellFormed = false := by decide

theorem test_wf_encCmd_packet_flags : (Instr.encCmd 0 .wlanPort (.pktTx noPktFlags)).wellFormed = false := by decide

theorem test_wf_tooShort_four_bytes : (Instr.decTooShort 0 4).wellFormed = false := by decide

theorem test_wf_badType_one : (Instr.decBadType 0 1 0).wellFormed = false := by decide

theorem test_wf_badEvt_discard :
    (Instr.decEvtBadEvt7 0 .discard 0 0).wellFormed = false ∧
    (Instr.decEvtBadEvt8 0 .discard 0 0 0).wellFormed = false := by decide

theorem test_wf_overflow_that_fits :
    (Instr.decOverflow 0 (.pkt ⟨.wlanPort, noRxFlags, 0, 12⟩) 12).wellFormed = false := by decide

theorem test_wf_overflow_discard :
    (Instr.decOverflow 0 (.evt ⟨.discard, ⟨false, 0, .cmdDone, false, .mgmt⟩, 0, 12⟩) 0).wellFormed = false := by decide

theorem test_wf_frame_rows_discard :
    (Instr.decPkt 0 ⟨.discard, noRxFlags, 0, 0⟩).wellFormed = false ∧
    (Instr.decEvt 0 ⟨.discard, ⟨false, 0, .cmdDone, false, .mgmt⟩, 0, 0⟩).wellFormed = false := by decide

theorem test_wf_dispatch_frame :
    (Instr.dispatch (.ok { dataFrame with port := .discard })).wellFormed = false ∧
    (Instr.dispatch (.ok { dataFrame with payloadSlice := [] })).wellFormed = false := by decide

theorem test_wf_dispatch_discard_word :
    (Instr.dispatch (.discard 0xB0000000)).wellFormed = false ∧
    (Instr.dispatch (.discard 0x38000000)).wellFormed = false := by decide

theorem test_wf_dispatch_errors :
    (Instr.dispatch (.err (.tooShort 4))).wellFormed = false ∧
    (Instr.dispatch (.err (.lengthOverflow 8 8))).wellFormed = false ∧
    (Instr.dispatch (.err (.unrecognized .type 1))).wellFormed = false ∧
    (Instr.dispatch (.err (.unrecognized .port 6))).wellFormed = false ∧
    (Instr.dispatch (.err (.unrecognized .eventType 6))).wellFormed = false ∧
    (Instr.dispatch (.err (.unrecognized .eventType 16))).wellFormed = false := by decide

/-! ### Words written out from the spec's encodings -/

/-- R54 and ENC-08: TYPE 00, D_PORT 101, QueueSelect 11, Wiv 1, 00, Cso 1, Tso 1, Is80211 1, 0, TxBurst 1, NextValid 1,
Length 4. -/
theorem test_decode_encPkt :
    0b00_101_11_1_00_1_1_1_0_1_1_0000000000000100#32 = 0x2F3B0004#32 ∧
    decode .tx 0 [0x04, 0x00, 0x3B, 0x2F] = .ok (.encPkt 0 .virtualCpuTxPort (.pktTx allPktFlags)) := ⟨rfl, rfl⟩

/-- R55 and ENC-09: TYPE 01, D_PORT 010, CommandType 1111111, SequenceNumber 1010, Length 8. -/
theorem test_decode_encCmd :
    0b01_010_1111111_1010_0000000000001000#32 = 0x57FA0008#32 ∧
    decode .tx 0 [0x08, 0x00, 0xFA, 0x57] = .ok (.encCmd 0 .cpuTxPort (.cmdTx ⟨10, 127⟩)) := ⟨rfl, rfl⟩

/-- R78 and SRC-1: ENC.DATA's word is ENC.PKT's with D_PORT 000. -/
theorem test_decode_encData :
    encode (.encData 0 dataFlags) 12 = some [0x0C, 0x00, 0x08, 0x04] ∧
    decode .tx 0 [0x0C, 0x00, 0x08, 0x04] = .ok (.encPkt 0 .wlanPort (.pktTx dataFlags)) := ⟨rfl, rfl⟩

theorem test_decode_decTooShort : decode .rx 0 [0x0C, 0x00, 0x08] = .ok (.decTooShort 0 3) := rfl

/-- DEC-14: TYPE 11 wins over PORT 110; bits 29:0 are kept. -/
theorem test_decode_decBadType : decode .rx 0 [0, 0, 0, 0xF0] = .ok (.decBadType 0 3 0x30000000) := rfl

theorem test_decode_decDiscard : decode .rx 0 [0x64, 0x00, 0x00, 0x30] = .ok (.decDiscard 0 .packet 100) := rfl

/-- DEC-16, with TYPE 01 instead: 01 111 and D = 0x3FFF. -/
theorem test_decode_decBadPort : decode .rx 0 [0xFF, 0x3F, 0x00, 0x78] = .ok (.decBadPort 0 .command 0x3FFF) := rfl

/-- DEC-09: TYPE 01, PORT 001, EventType 0111. -/
theorem test_decode_decEvtBadEvt7 :
    decode .rx 0 [0x04, 0x00, 0x70, 0x48, 1, 2, 3, 4] = .ok (.decEvtBadEvt7 0 .cpuRxPort 0 4) := rfl

/-- DEC-15: EventType 1111 wins over the Length. -/
theorem test_decode_decEvtBadEvt8 :
    decode .rx 0 [0xFF, 0xFF, 0xF0, 0x48] = .ok (.decEvtBadEvt8 0 .cpuRxPort 0 7 0xFFFF) := rfl

/-- DEC-04: D = 12 and 11 bytes are there. -/
theorem test_decode_decOverflow :
    decode .rx 0 ([0x0C, 0x00, 0x08, 0x04] ++ List.replicate 11 0xAA) =
      .ok (.decOverflow 0 (.pkt ⟨.wlanPort, { noRxFlags with is80211 := true, qsel := .edca }, 0, 12⟩) 11) := rfl

/-- R56 and DEC-13: TYPE 00, PORT 011, QSel 00, PcieIntr 1, MacHeaderLength 111, L3L4Done 1, Is80211 0, IpErr 1,
TcpErr 1, UdpErr 1, 00, Length 2. -/
theorem test_decode_decPkt :
    0b00_011_00_1_111_1_0_1_1_1_00_00000000000010#32 = 0x19F70002#32 ∧
    decode .rx 0 ([0x02, 0x00, 0xF7, 0x19] ++ List.replicate 6 9) =
      .ok (.decPkt 0 ⟨.hostPort, ⟨true, true, true, false, true, 7, true, .mgmt⟩, 0, 2⟩) := ⟨rfl, rfl⟩

/-- R57 and DEC-17: TYPE 01, PORT 101, QSel 11, PcieIntr 1, EventType 0110, CmdSeq 1111, SelfGenerated 1, 0, Length 8. -/
theorem test_decode_decEvt :
    0b01_101_11_1_0110_1111_1_0_00000000001000#32 = 0x6F6F8008#32 ∧
    decode .rx 0 ([0x08, 0x80, 0x6F, 0x6F] ++ List.replicate 8 0xEE) =
      .ok (.decEvt 0 ⟨.virtualCpuTxPort, ⟨true, 15, .eventDfsDetectRsp, true, .edca2⟩, 0, 8⟩) := ⟨rfl, rfl⟩

/-- R67, R73, R65: what the encoder cannot write is rejected by name. -/
theorem test_decode_tx_rejects :
    decode .tx 0 [0, 0, 0] = .error .noHeader ∧ decode .tx 0 [0, 0, 0, 0x80] = .error .reservedType ∧
    decode .tx 0 [0, 0, 0, 0x38] = .error .reservedPort ∧ decode .tx 0 [0, 0, 0x04, 0] = .error .reservedBit ∧
    decode .tx 0 [1, 0, 0, 0] = .error .unroundedLength := by decide

/-- The table's patterns of BADTYPE and BADEVT8, read as received words. -/
theorem test_decodeTableWord :
    decodeTableWord 32 0x80000000 = some (.decBadType 0 2 0) ∧
    decodeTableWord 32 0x40800000 = some (.decEvtBadEvt8 0 .wlanPort 0 0 0) := ⟨rfl, rfl⟩

/-! ### One step: the encoder -/

/-- R6, R81: TX_MAX_LEN is the largest payload whose rounded length fits 16 bits. -/
theorem test_txMaxLen :
    admitSize Config.txMaxLen .packet = true ∧ admitSize (Config.txMaxLen + 1) .packet = false := by decide

/-- ENC-08. -/
theorem test_encPkt_all_flags :
    said (exec (.encPkt 0 .virtualCpuTxPort (.pktTx allPktFlags)) (holding [0x5A, 0x5A, 0x5A, 0x5A])) =
      some [.enc [0x04, 0x00, 0x3B, 0x2F, 0x5A, 0x5A, 0x5A, 0x5A, 0, 0, 0, 0]] := by decide

/-- ENC-14: the port is not checked, and the buffer itself is grown (R37). -/
theorem test_encPkt_discard_port :
    (next? (exec (.encPkt 0 .discard (.pktTx noPktFlags)) (holding [1, 2]))).map State.buffers =
      some [(0, [0x04, 0x00, 0x00, 0x30, 1, 2, 0, 0, 0, 0, 0, 0])] := by decide

/-- ENC-10, at the smallest size, which every CMD_MAX_LEN admits. -/
theorem test_encCmd_empty :
    said (exec (.encCmd 0 .cpuTxPort (.cmdTx ⟨0, 0⟩)) (holding [])) = some [.enc [0, 0, 0, 0x50, 0, 0, 0, 0]] := rfl

/-- ENC-09, where CMD_MAX_LEN admits 5 bytes. -/
theorem test_encCmd_five_bytes (h : 5 ≤ Config.cmdMaxLen.val) :
    said (exec (.encCmd 0 .cpuTxPort (.cmdTx ⟨10, 127⟩)) (holding [0x11, 0x22, 0x33, 0x44, 0x55])) =
      some [.enc [0x08, 0x00, 0xFA, 0x57, 0x11, 0x22, 0x33, 0x44, 0x55, 0, 0, 0, 0, 0, 0, 0]] := by
  have ha : admitSize 5 .command = true := (admitSize_command 5).2 ⟨by decide, h⟩
  show said (if admitSize 5 .command = true then _ else _) = _
  rw [ha]; rfl

/-- SRC-1. -/
theorem test_encData_src1 :
    said (exec (.encData 0 dataFlags) (holding [0, 1, 2, 3, 4, 5, 6, 7, 8, 9])) =
      some [.enc [0x0C, 0x00, 0x08, 0x04, 0, 1, 2, 3, 4, 5, 6, 7, 8, 9, 0, 0, 0, 0, 0, 0]] := by decide

/-- ENC-13. -/
theorem test_enc_wrong_flags :
    refusal? (exec (.encCmd 0 .wlanPort (.pktTx noPktFlags)) (holding [])) = some .configurationError ∧
    refusal? (exec (.encPkt 0 .wlanPort (.cmdTx ⟨0, 0⟩)) (holding [])) = some .configurationError := by decide

/-! ### One step: the decoder's rows -/

theorem test_decTooShort : said (exec (.decTooShort 0 0) (holding [])) = some [.dec (.err (.tooShort 0))] := by decide

/-- DEC-06. -/
theorem test_decBadType :
    said (exec ((holding [0, 0, 0, 0xC0]).fetch (.decode 0)) (holding [0, 0, 0, 0xC0])) =
      some [.dec (.err (.unrecognized .type 3))] := by decide

/-- DEC-21. -/
theorem test_decDiscard :
    said (exec (.decDiscard 0 .packet 100) (holding [0x64, 0, 0, 0x30])) = some [.dec (.discard 0x30000064)] := by
  decide

/-- DEC-07. -/
theorem test_decBadPort :
    said (exec (.decBadPort 0 .packet 0) (holding [0, 0, 0, 0x38])) =
      some [.dec (.err (.unrecognized .port 7))] := by decide

/-- DEC-09. -/
theorem test_decEvtBadEvt7 :
    said (exec (.decEvtBadEvt7 0 .cpuRxPort 0 4) (holding [4, 0, 0x70, 0x48, 1, 2, 3, 4])) =
      some [.dec (.err (.unrecognized .eventType 7))] := by decide

/-- DEC-15. -/
theorem test_decEvtBadEvt8 :
    said (exec (.decEvtBadEvt8 0 .cpuRxPort 0 7 0xFFFF) (holding [0xFF, 0xFF, 0xF0, 0x48])) =
      some [.dec (.err (.unrecognized .eventType 15))] := by decide

/-- P3, line 4: D = 16 and 8 bytes are there. -/
theorem test_decOverflow :
    said (exec ((holding [0x10, 0, 0, 0, 0, 0, 0, 0, 0, 0, 0, 0]).fetch (.decode 0))
      (holding [0x10, 0, 0, 0, 0, 0, 0, 0, 0, 0, 0, 0])) = some [.dec (.err (.lengthOverflow 16 8))] := by decide

/-- DEC-19: trailing bytes are ignored. -/
theorem test_decPkt_trailing :
    said (exec (.decPkt 0 ⟨.wlanPort, noRxFlags, 0, 3⟩) (holding [3, 0, 0, 0, 1, 2, 3, 4, 5, 6, 7])) =
      some [.dec (.ok ⟨.wlanPort, 3, .rxPkt noRxFlags, [1, 2, 3], 3⟩)] := by decide

/-- DEC-10: bits 15:14 are ignored and kept in the header word. -/
theorem test_decPkt_unassigned :
    said (exec (.decPkt 0 ⟨.wlanPort, noRxFlags, 3, 4⟩) (holding [4, 0xC0, 0, 0, 1, 2, 3, 4])) =
      some [.dec (.ok ⟨.wlanPort, 4, .rxPkt noRxFlags, [1, 2, 3, 4], 0x0000C004⟩)] := by decide

/-- DEC-08. -/
theorem test_decEvt :
    said (exec (.decEvt 0 ⟨.cpuRxPort, ⟨true, 3, .cmdDone, false, .mgmt⟩, 0, 4⟩)
      (holding [4, 0x80, 3, 0x48, 1, 2, 3, 4])) = some [.dec (.ok eventFrame)] := by decide

/-- R34: a frame row whose payload bytes are not in the buffer faults; the decoder never selects it there. -/
theorem test_frame_row_out_of_bounds :
    exec (.decPkt 0 ⟨.wlanPort, noRxFlags, 0, 1⟩) (holding [1, 0, 0, 0]) = .fault .outOfBounds := rfl

/-! ### One step: the dispatcher -/

/-- DSP-01 and DSP-02. -/
theorem test_dispatch_delivers :
    said (exec (.dispatch (.ok dataFrame)) (holding [])) =
      some [.route (.deliver (.pktKey .wlanPort .edca) dataFrame)] ∧
    said (exec (.dispatch (.ok eventFrame)) (holding [])) =
      some [.route (.deliver (.evtKey .cpuRxPort .cmdDone) eventFrame)] := by decide

/-- DSP-05 and DSP-07. -/
theorem test_dispatch_drops :
    said (exec (.dispatch (.discard 0x30000000)) (holding [])) =
      some [.route (.drop (.discardPort 0x30000000))] ∧
    said (exec (.dispatch (.err (.lengthOverflow 12 11))) (holding [])) =
      some [.route (.drop (.decodeFailed (.lengthOverflow 12 11)))] := by decide

/-- P2, line 2. -/
theorem test_recv_event :
    (said (exec (.recv 0) (holding [4, 0, 5, 0x48, 0, 0, 0, 0, 0, 0, 0, 0]))).map (·.take 1) =
      some [.route (.deliver (.evtKey .cpuRxPort .cmdDone)
        ⟨.cpuRxPort, 4, .rxEvt ⟨false, 5, .cmdDone, false, .mgmt⟩, [0, 0, 0, 0], 0x48050004⟩)] := by decide

/-- P3, line 2: Discard before the Length check. -/
theorem test_recv_discard :
    said (exec (.recv 0) (holding [0xFF, 0x3F, 0, 0x30])) =
      some [.route (.drop (.discardPort 0x30003FFF)), .dec (.discard 0x30003FFF)] := by decide

/-! ### One step of the machine -/

/-- LB-4: a decode request for what ENC-14 left. -/
theorem test_step_decodes_the_buffer :
    said (step (waiting [0x04, 0, 0, 0x30, 1, 2, 0, 0, 0, 0, 0, 0] (.request (.decode 0)))) =
      some [.dec (.discard 0x30000004)] := by decide

theorem test_step_withFetchWord :
    said (step (State.reset.withFetchWord 32 0x38000000)) = some [.dec (.err (.unrecognized .port 7))] := by decide

theorem test_step_start :
    (next? (step (waiting [] (.start (.decode 0))))).map State.inProgress = some [.decode 0] := by decide

/-- R82, R129: a concurrent request with the other type's flags is refused when it begins (log entry 26). -/
theorem test_step_start_refused :
    refusal? (step (waiting [] (.start (.encode 0 .wlanPort .packet (.cmdTx ⟨0, 0⟩))))) = some .configurationError := by
  decide

/-- R148: with no input waiting the oldest request in progress is served. -/
theorem test_step_serves_oldest :
    next? (step { holding [] with inProgress := [.decode 0, .recv 1] }) =
      some { State.reset with inProgress := [.recv 1], responses := [.dec (.err (.tooShort 0))] } := by decide

theorem test_step_complete :
    next? (step { waiting [] (.complete 0) with inProgress := [.decode 0] }) =
      some { State.reset with responses := [.dec (.err (.tooShort 0))] } := by decide

/-- R129: BufferBusy comes before ConfigurationError. -/
theorem test_step_busy :
    refusal? (step { waiting [] (.request (.encode 0 .wlanPort .packet (.cmdTx ⟨0, 0⟩))) with
      inProgress := [.decode 0] }) = some .bufferBusy := by decide

theorem test_step_place :
    (next? (step (waiting [] (.place 2 [7])))).map State.buffers = some [(2, [7])] := by decide

/-- R139: no response, and nothing is left in progress. -/
theorem test_step_reset :
    (next? (step { waiting [] .reset with inProgress := [.dispatch (.discard 0), .dispatch (.discard 1)] })) =
      some State.reset := by decide

/-! ### States and operands that meet the hypotheses of the obligations, by the obligation's name -/

theorem witness_RoundUpIsTheLeastMultipleOfFour : 5 ≤ 8 ∧ 4 ∣ 8 := by decide

theorem witness_PadLengthIsFourToSevenBytes :
    0 % 4 = 0 ∧ 65532 % 4 = 0 ∧ 1 % 4 = 1 ∧ 2 % 4 = 2 ∧ 3 % 4 = 3 := by decide

theorem witness_FieldExtractionIsShiftAndMask : (0 ≤ 31 ∧ 31 < 32) ∧ (31 ≤ 31 ∧ 31 < 32) := by decide

theorem witness_TxPacketHeaderHasTheBitsOfTxpkt : 65532 ≤ 65532 ∧ roundUp 65532 4 = 0xFFFC := by decide

theorem witness_TxCommandHeaderHasTheBitsOfTxcmd : 0 ≤ 65532 ∧ 65532 ≤ 65532 := by decide

/-- Each DEC row, at the ends of its operands' ranges. -/
theorem witness_DecodeOfEncodeOnReceiveRows :
    ∀ i ∈ [Instr.decTooShort 0 0, .decTooShort 0 3, .decBadType 0 2 0, .decBadType 0 3 0x3FFFFFFF,
      .decDiscard 0 .command 0x7FFFFFF, .decBadPort 0 .packet 0, .decEvtBadEvt7 0 .virtualCpuTxPort 7 0xFFFFF,
      .decEvtBadEvt8 0 .wlanPort 0 0 0, .decEvtBadEvt8 0 .wlanPort 7 7 0xFFFFF,
      .decOverflow 0 (.pkt ⟨.wlanPort, noRxFlags, 3, 1⟩) 0, .decPkt 0 ⟨.virtualCpuTxPort, noRxFlags, 3, 0x3FFF⟩,
      .decEvt 0 ⟨.wlanPort, ⟨true, 15, .eventDfsDetectRsp, true, .edca2⟩, 1, 0⟩],
      i.wellFormed = true ∧ i.direction = .rx ∧ i.buf? = some 0 ∧ i ≠ .recv 0 := by decide

theorem witness_DecodeOfEncodeOnTransmitRows :
    (∀ i ∈ [Instr.encPkt 0 .discard (.pktTx allPktFlags), .encCmd 0 .wlanPort (.cmdTx ⟨15, 127⟩),
      .encData 0 noPktFlags], i.wellFormed = true ∧ i.direction = .tx ∧ i.buf? = some 0) ∧
    (0xFFFC : BitVec 16).toNat % 4 = 0 := by decide

theorem witness_EncodeOfDecodeKeepsEveryHeaderBit :
    decodeTxWord 0 0x2F3BFFFC = .ok (.encPkt 0 .virtualCpuTxPort (.pktTx allPktFlags)) := rfl

theorem witness_DecodedOperationsAreWellFormed :
    decode .rx 0 [0, 0, 0, 0xF0] = .ok (.decBadType 0 3 0x30000000) ∧
    decode .tx 0 [0, 0, 0, 0x50] = .ok (.encCmd 0 .cpuTxPort (.cmdTx ⟨0, 0⟩)) := ⟨rfl, rfl⟩

theorem witness_TransmitDecoderRejectsReservedAndUnroundedWords :
    field 0x80000000 31 30 = 2 ∧ field 0xC0000000 31 30 = 3 ∧
    (field 0x38000000 31 30 = 0 ∧ field 0x38000000 29 27 = 7) ∧
    (field 0x78000000 31 30 = 1 ∧ field 0x78000000 29 27 = 7) := by decide

/-- A free buffer of any length. -/
theorem holding_replicate (n : Nat) :
    (holding (List.replicate n 0)).busy 0 = false ∧ ((holding (List.replicate n 0)).buffer 0).length = n := by
  refine ⟨rfl, ?_⟩
  cases n with
  | zero => rfl
  | succ n => simp [State.buffer, holding, Memory.set, Memory.entry, Memory.get, List.replicate_succ]

/-- The longest payload, and one byte more. -/
theorem witness_EncPktAnswersTheGrownBuffer :
    (∃ s : State, s.busy 0 = false ∧ (s.buffer 0).length = 65532) ∧
    (∃ s : State, s.busy 0 = false ∧ 65532 < (s.buffer 0).length) :=
  ⟨⟨_, holding_replicate 65532⟩, ⟨_, (holding_replicate 65533).1, by rw [(holding_replicate 65533).2]; decide⟩⟩

/-- A payload of exactly CMD_MAX_LEN bytes, one of a byte more, and one of 65533. -/
theorem witness_EncCmdAnswersTheGrownBuffer :
    (∃ s : State, s.busy 0 = false ∧ (s.buffer 0).length ≤ 65532 ∧ (s.buffer 0).length = Config.cmdMaxLen.val) ∧
    (∃ s : State, s.busy 0 = false ∧ Config.cmdMaxLen.val < (s.buffer 0).length) ∧
    (∃ s : State, s.busy 0 = false ∧ 65532 < (s.buffer 0).length) := by
  have hc := Config.cmdMaxLen.isLt
  have h := holding_replicate
  refine ⟨⟨_, (h Config.cmdMaxLen.val).1, ?_, (h _).2⟩, ⟨_, (h (Config.cmdMaxLen.val + 1)).1, ?_⟩,
    ⟨_, (h 65533).1, ?_⟩⟩ <;> rw [(h _).2] <;> omega

theorem witness_EncDataIsEncPktOnWlanPort :
    (holding [1]).busy 0 = false ∧ ((holding [1]).buffer 0).length ≤ 65532 := by decide

theorem witness_EncodedOutputHasItsLayoutAndLength :
    (∃ t, exec (.encPkt 0 .discard (.pktTx allPktFlags)) (holding [1]) = .next t) ∧
    (∃ t, exec (.encCmd 0 .wlanPort (.cmdTx ⟨15, 127⟩)) (holding []) = .next t) ∧
    (∃ t, exec (.encData 0 noPktFlags) (holding [1, 2, 3, 4]) = .next t) := ⟨⟨_, rfl⟩, ⟨_, rfl⟩, ⟨_, rfl⟩⟩

theorem witness_LengthFieldCoversPayloadAndAlignmentOnly :
    (∃ t, exec (.encPkt 0 .discard (.pktTx allPktFlags)) (holding [1]) = .next t) ∧
    (∃ t, exec (.encCmd 0 .wlanPort (.cmdTx ⟨15, 127⟩)) (holding []) = .next t) ∧
    (∃ t, exec (.encData 0 noPktFlags) (holding [1, 2, 3, 4]) = .next t) := ⟨⟨_, rfl⟩, ⟨_, rfl⟩, ⟨_, rfl⟩⟩

theorem witness_EncodeCompletesExactlyWithinTheSizeBound :
    (∃ s : State, s.busy 0 = false ∧ roundUp (s.buffer 0).length 4 = 65532) ∧
    (∃ s : State, s.busy 0 = false ∧ roundUp (s.buffer 0).length 4 = 65536) := by
  refine ⟨⟨_, (holding_replicate 65532).1, ?_⟩, ⟨_, (holding_replicate 65533).1, ?_⟩⟩ <;>
    rw [(holding_replicate _).2] <;> decide

theorem witness_EncoderWritesAnyPortAsGiven :
    (holding []).busy 0 = false ∧ ((holding []).buffer 0).length ≤ 65532 ∧
    ((holding []).buffer 0).length ≤ Config.cmdMaxLen.val :=
  ⟨rfl, by decide, Nat.zero_le _⟩

/-- Each of the three reasons is the first for some request. -/
theorem witness_RefusalIsTheFirstReasonThatApplies :
    State.firstRefusal { holding [] with inProgress := [.decode 0] } (.recv 0) = some .bufferBusy ∧
    (holding []).firstRefusal (.encode 0 .wlanPort .command (.pktTx noPktFlags)) = some .configurationError ∧
    ∃ s : State, s.firstRefusal (.encData 0 noPktFlags) = some .oversize := by
  refine ⟨by decide, by decide, holding (List.replicate 65533 0), ?_⟩
  have h := holding_replicate 65533
  simp only [State.firstRefusal, State.busyFor, Request.buf?, h.1, h.2]
  decide

theorem witness_AdmittedRequestsAlwaysComplete :
    (∀ r ∈ [Request.encode 0 .wlanPort .packet (.pktTx noPktFlags), .encData 0 noPktFlags, .decode 0,
      .dispatch (.discard 0), .recv 0], (holding []).firstRefusal r = none) ∧
    (holding []).firstRefusal (.encode 0 .wlanPort .command (.cmdTx ⟨0, 0⟩)) = none := by
  refine ⟨by decide, ?_⟩
  have hb : (holding []).busy 0 = false := rfl
  have hl : ((holding []).buffer 0).length = 0 := rfl
  simp [State.firstRefusal, State.busyFor, Request.buf?, TxFlags.belongsTo, hb, hl]

theorem witness_ShortBuffersDecodeToTooShort :
    (holding []).busy 0 = false ∧ ((holding []).buffer 0).length < 4 ∧
    ((holding [1, 2, 3]).buffer 0).length < 4 := by decide

/-- The header word in buffer 0, with what stands behind it. -/
def headed (h : Word) (rest : Buffer) : State := holding (le32 h ++ rest)

/-- A header word can stand in a free buffer, whatever stands behind it: the hypotheses that the statements about
decode requests share. -/
theorem headed_meets (h : Word) (rest : Buffer) :
    (headed h rest).busy 0 = false ∧
    (headed h rest).buffer 0 = field h 7 0 :: field h 15 8 :: field h 23 16 :: field h 31 24 :: rest ∧
    fromLe32 (field h 7 0) (field h 15 8) (field h 23 16) (field h 31 24) = h :=
  ⟨rfl, rfl, fromLe32_le32 h⟩

theorem witness_ReservedTypeDecodesToUnrecognizedType :
    (headed 0xBFFFFFFF []).busy 0 = false ∧ field 0xBFFFFFFF 31 30 = 2 ∧
    (headed 0xF0000000 []).busy 0 = false ∧ field 0xF0000000 31 30 = 3 := by decide

theorem witness_DiscardPortDecodesToDiscard :
    (headed 0x30003FFF []).busy 0 = false ∧ field 0x30003FFF 31 30 = 0 ∧ field 0x30003FFF 29 27 = 6 ∧
    (headed 0x70F00000 []).busy 0 = false ∧ field 0x70F00000 31 30 = 1 ∧ field 0x70F00000 29 27 = 6 := by decide

theorem witness_ReservedPortDecodesToUnrecognizedPort :
    (headed 0x38003FFF []).busy 0 = false ∧ field 0x38003FFF 31 30 = 0 ∧ field 0x38003FFF 29 27 = 7 ∧
    (headed 0x78F00000 []).busy 0 = false ∧ field 0x78F00000 31 30 = 1 ∧ field 0x78F00000 29 27 = 7 := by decide

/-- Codes 7, 8 and 15, ports 0 and 5. -/
theorem witness_ReservedEventDecodesToUnrecognizedEvent :
    (field 0x40700000 31 30 = 1 ∧ (field 0x40700000 29 27).toNat ≤ 5 ∧ 7 ≤ (field 0x40700000 23 20).toNat) ∧
    (field 0x68800000 31 30 = 1 ∧ (field 0x68800000 29 27).toNat ≤ 5 ∧ 7 ≤ (field 0x68800000 23 20).toNat) ∧
    (field 0x68F03FFF 31 30 = 1 ∧ (field 0x68F03FFF 29 27).toNat ≤ 5 ∧ 7 ≤ (field 0x68F03FFF 23 20).toNat) := by
  decide

/-- D = N - 3, for a packet and for an event. -/
theorem witness_OverlongLengthDecodesToLengthOverflow :
    (field 0x28000003 31 30 = 0 ∧ (field 0x28000003 29 27).toNat ≤ 5 ∧
      ((headed 0x28000003 [1, 2]).buffer 0).length - 4 < (field 0x28000003 13 0).toNat) ∧
    (field 0x40600001 31 30 = 1 ∧ (field 0x40600001 23 20).toNat ≤ 6 ∧ (field 0x40600001 29 27).toNat ≤ 5 ∧
      ((headed 0x40600001 []).buffer 0).length - 4 < (field 0x40600001 13 0).toNat) := by decide

/-- D = N - 4, for a packet and for an event, and D = 0. -/
theorem witness_CheckedHeadersDecodeToTheFrame :
    (holding [2, 0, 0, 0, 1, 2]).busy 0 = false ∧
    4 + (2 : BitVec 14).toNat ≤ ((holding [2, 0, 0, 0, 1, 2]).buffer 0).length ∧
    (field 0x28000002 31 30 = 0 ∧ (field 0x28000002 29 27).toNat ≤ 5 ∧
      (field 0x28000002 13 0).toNat ≤ ((headed 0x28000002 [1, 2]).buffer 0).length - 4) ∧
    (field 0x40600000 31 30 = 1 ∧ (field 0x40600000 23 20).toNat ≤ 6 ∧ (field 0x40600000 29 27).toNat ≤ 5 ∧
      (field 0x40600000 13 0).toNat ≤ ((headed 0x40600000 []).buffer 0).length - 4) := by decide

theorem witness_FrameFlagsAreTheHeaderBits :
    (∃ t f, exec ((headed 0 []).fetch (.decode 0)) (headed 0 []) = .next t ∧ t.responses = [.dec (.ok f)] ∧
      field f.headerWord 31 30 = 0) ∧
    (∃ t f, exec ((headed 0x40000000 []).fetch (.decode 0)) (headed 0x40000000 []) = .next t ∧
      t.responses = [.dec (.ok f)] ∧ field f.headerWord 31 30 = 1) :=
  ⟨⟨_, _, rfl, rfl, rfl⟩, ⟨_, _, rfl, rfl, rfl⟩⟩

theorem witness_DecodeRequestsAnswerDec : (holding [1]).busy 0 = false := rfl

/-- Both header types, and a frame, a Discard and an error as outcomes. -/
theorem witness_UnassignedReceiveBitsAreIgnored :
    (field 0 31 30 = 0 ∧ (0xC000 : Word) &&& 0xFFFF3FFF = 0 ∧ dec (le32 0) = .ok ⟨.wlanPort, 0, .rxPkt noRxFlags, [], 0⟩) ∧
    (field 0x70000000 31 30 = 1 ∧ (0x4000 : Word) &&& 0xFFFFBFFF = 0 ∧ dec (le32 0x70000000) = .discard 0x70000000) ∧
    dec (le32 0x40700000) = .err (.unrecognized .eventType 7) := by decide

theorem witness_TrailingBytesAreNotPartOfTheFrame :
    dec [3, 0, 0, 0, 1, 2, 3, 4] = .ok ⟨.wlanPort, 3, .rxPkt noRxFlags, [1, 2, 3], 3⟩ := by decide

theorem witness_FramesHaveRecognisedPortTypeAndEvent : dec [4, 0x80, 3, 0x48, 1, 2, 3, 4] = .ok eventFrame := by
  decide

theorem witness_NoStepFaultsAndReceivingNeverStops :
    (holding [1]).busy 0 = false ∧ (waiting [1] (.request (.decode 0))).inputs = [.request (.decode 0)] ∧
    (waiting [1] (.request (.recv 0))).inputs = [.request (.recv 0)] := by decide

/-- A slice that loses bits (LB-5: L = 16381) and one that comes back whole. -/
theorem witness_LoopbackLaw :
    (∃ s : State, s.busy 0 = false ∧ (s.buffer 0).length ≤ 65532 ∧ (s.buffer 0).length ≤ Config.cmdMaxLen.val) ∧
    (roundUp 16381 4 % 2 ^ 14 = 0 ∧ 16381 ≤ 65532) ∧ (8 % 4 = 0 ∧ roundUp 8 4 < 2 ^ 14) :=
  ⟨⟨holding [], rfl, by decide, Nat.zero_le _⟩, by decide, by decide⟩

theorem witness_FramesAreDeliveredByTheirKey :
    dataFrame.transferType = .packet ∧ eventFrame.flags = .rxEvt ⟨true, 3, .cmdDone, false, .mgmt⟩ := by decide

theorem witness_RecvIsDecodeThenDispatch : (holding [1, 2]).busy 0 = false := rfl

theorem witness_DeliveredFramesNameARealPort :
    ∃ t key f older, exec (.recv 0) (holding [4, 0x80, 3, 0x48, 1, 2, 3, 4]) = .next t ∧
      t.responses = .route (.deliver key f) :: older := ⟨_, _, _, _, rfl, rfl⟩

theorem witness_EncodersWriteOnlyTheirBuffer :
    ∃ t, (Instr.encCmd 0 .discard (.cmdTx ⟨1, 2⟩)).direction = .tx ∧
      exec (.encCmd 0 .discard (.cmdTx ⟨1, 2⟩)) (holding []) = .next t := ⟨_, rfl, rfl⟩

theorem witness_ReceiveSideWritesNothing :
    ∃ t, (Instr.recv 0).direction = .rx ∧ exec (.recv 0) (holding [1]) = .next t := ⟨_, rfl, rfl⟩

/-- Two states that agree on buffer 0 and on nothing else. -/
theorem witness_ResponsesDependOnTheRequestAlone :
    (holding [1]).busyFor (.decode 0) = false ∧
    State.busyFor ⟨[.reset], [(0, [1]), (2, [7])], [.decode 2], [.enc []], 5⟩ (.decode 0) = false ∧
    (holding [1]).buffer 0 = State.buffer ⟨[.reset], [(0, [1]), (2, [7])], [.decode 2], [.enc []], 5⟩ 0 ∧
    (next? (exec ((holding [1]).fetch (.decode 0)) (holding [1]))).isSome = true := by decide

/-- An encode of one buffer and a decode of another. -/
theorem witness_DistinctBuffersDoNotOrderEachOther :
    (∀ b c, (Request.encData 0 noPktFlags).buf? = some b → (Request.decode 1).buf? = some c → b ≠ c) ∧
    (∃ t, exec ((holding [1]).fetch (.encData 0 noPktFlags)) (holding [1]) = .next t) ∧
    (∃ u, exec ((holding [1]).fetch (.decode 1)) (holding [1]) = .next u) :=
  ⟨by intro b c h1 h2; cases h1; cases h2; decide, ⟨_, rfl⟩, ⟨_, rfl⟩⟩

theorem witness_DecodingAndDispatchingTwiceAgree : (holding [1, 2, 3, 4, 5]).busy 0 = false := rfl

theorem witness_EachRequestGetsItsOwnKindOfResponse :
    (∃ t, exec ((holding [1]).fetch (.encode 0 .wlanPort .packet (.pktTx noPktFlags))) (holding [1]) = .next t) ∧
    (∃ t, exec ((holding [1]).fetch (.encData 0 noPktFlags)) (holding [1]) = .next t) ∧
    (∃ t, exec ((holding [1]).fetch (.decode 0)) (holding [1]) = .next t) ∧
    (∃ t, exec ((holding [1]).fetch (.dispatch (.discard 0))) (holding [1]) = .next t) ∧
    (∃ t, exec ((holding [1]).fetch (.recv 0)) (holding [1]) = .next t) :=
  ⟨⟨_, rfl⟩, ⟨_, rfl⟩, ⟨_, rfl⟩, ⟨_, rfl⟩, ⟨_, rfl⟩⟩

theorem witness_StepRunsTheDecodedOperation :
    (State.reset.inputs = [] ∧ State.reset.inProgress = []) ∧
    (waiting [1] (.request (.decode 0))).inputs = [.request (.decode 0)] ∧
    decode .rx 0 ((waiting [1] (.request (.decode 0))).buffer 0) = .ok (.decTooShort 0 1) := ⟨⟨rfl, rfl⟩, rfl, rfl⟩

/-- A request in progress with no input, one that an input names, and an index past the last. -/
theorem witness_ConcurrentRequestsAreServedByOneStep :
    (State.inputs { holding [] with inProgress := [.decode 0, .recv 1] } = [] ∧
      State.inProgress { holding [] with inProgress := [.decode 0, .recv 1] } = [.decode 0, .recv 1]) ∧
    (waiting [] (.complete 0)).inputs = [.complete 0] ∧
    State.inProgress { waiting [] (.complete 0) with inProgress := [.decode 0] } = [.decode 0] ∧
    (waiting [] (.complete 0)).inProgress[0]? = none := by decide

theorem witness_BusyBuffersAreRefused :
    (Instr.recv 0).buf? = some 0 ∧ State.busy { holding [1] with inProgress := [.decode 0] } 0 = true ∧
    (waiting [1] (.start (.decode 0))).inputs = [.start (.decode 0)] ∧
    State.busyFor { holding [1] with inProgress := [.recv 0] } (.decode 0) = true ∧
    (waiting [1] (.start (.decode 0))).firstRefusal (.decode 0) = none ∧
    (waiting [1] (.start (.encode 0 .wlanPort .packet (.cmdTx ⟨0, 0⟩)))).firstRefusal
      (.encode 0 .wlanPort .packet (.cmdTx ⟨0, 0⟩)) = some .configurationError := by decide

/-- One buffer in an abandoned request and one in none; and nothing in progress. -/
theorem witness_ResetAbandonsRequestsInProgress :
    Memory.wf [(0, [1]), (1, [2])] ∧
    State.inputs ⟨[.reset], [(0, [1]), (1, [2])], [.decode 0], [], 0⟩ = [.reset] ∧
    State.busy ⟨[.reset], [(0, [1]), (1, [2])], [.decode 0], [], 0⟩ 0 = true ∧
    State.busy ⟨[.reset], [(0, [1]), (1, [2])], [.decode 0], [], 0⟩ 1 = false ∧
    (waiting [] .reset).inProgress = [] := by decide

theorem witness_PlacedBytesReadBack :
    (waiting [1] (.place 0 [2])).buffers.wf ∧ (waiting [1] (.place 0 [2])).busy 0 = false ∧
    (waiting [1] (.place 0 [2])).inputs = [.place 0 [2]] := by decide

/-- The last byte, and nothing at the very end. -/
theorem witness_MemoryAccessesStayInsideTheBuffer :
    memRead [1, 2, 3] 2 1 = some [3] ∧ memRead [1, 2, 3] 3 0 = some [] ∧ memRead [1, 2, 3] 3 1 = none ∧
    memWrite [1, 2, 3] 1 [8, 9] = some [1, 8, 9] ∧ memWrite [1, 2, 3] 2 [8, 9] = none := by decide

/-- A state that is not the reset state, and a step from it. -/
theorem witness_EveryStepKeepsBuffersCanonicalAndExclusive :
    (Memory.wf [(0, [1]), (3, [2])] ∧ ([Request.decode 0, .dispatch (.discard 0), .recv 3].filterMap Request.buf?).Nodup) ∧
    (next? (step ⟨[.start (.decode 1)], [(0, [1]), (3, [2])],
      [.decode 0, .dispatch (.discard 0), .recv 3], [], 0⟩)).isSome = true := by decide

theorem reset_admitted : State.reset.Admitted := fun _ hr => nomatch hr

/-- A request in progress, and one that begins. -/
theorem witness_EveryStepKeepsRequestsInProgressAdmitted :
    State.Admitted ⟨[.start (.decode 1)], [], [.decode 0], [], 0⟩ ∧
    (next? (step ⟨[.start (.decode 1)], [], [.decode 0], [], 0⟩)).isSome = true := by
  refine ⟨?_, by decide⟩
  intro r hr
  obtain rfl := List.mem_singleton.1 hr
  rfl

/-- Three requests in progress and no input, and as many steps as are pending. -/
theorem witness_EveryRequestIsEventuallyServed :
    State.pending ⟨[.start (.decode 1)], [], [.decode 0], [], 0⟩ ≤ 3 ∧
    State.Inv ⟨[], [], [.decode 0, .dispatch (.discard 0), .recv 1], [], 0⟩ ∧
    State.Admitted ⟨[], [], [.decode 0, .dispatch (.discard 0), .recv 1], [], 0⟩ := by
  refine ⟨by decide, ⟨by decide, by decide⟩, ?_⟩
  intro r hr
  simp only [List.mem_cons, List.not_mem_nil, or_false] at hr
  rcases hr with rfl | rfl | rfl <;> rfl

end Sys2Proof.Tests
end

/-! ## A response depends on the request alone (10_state.md R15) -/

namespace Sys2Proof.Machine

theorem State.busy_of_busyFor {s : State} {r : Request} {b : BufId} (h : s.busyFor r = false)
    (hb : r.buf? = some b) : s.busy b = false := by simpa [State.busyFor, hb] using h

theorem State.readByte_eq_buffer (s : State) (b : BufId) (a : Nat) : s.readByte b a = (s.buffer b)[a]? := rfl

section
/-! `s` and `s'` are two states in which one operation is run, and `t` is what it makes of `s`. -/
variable {s s' t : State} {b : BufId}

/-- Where `s'` holds the same bytes in a free buffer, an operation on that buffer works on the same bytes in both. -/
theorem State.owned_congr {k : Buffer → Result} (hfree : s'.busy b = false) (hbuf : s.buffer b = s'.buffer b)
    (h : s.owned b k = .next t) : k (s.buffer b) = .next t ∧ ∀ k', s'.owned b k' = k' (s.buffer b) :=
  ⟨(State.owned_next h).2, fun k' => by rw [State.owned_of_free hfree, hbuf]⟩

theorem encodePacket_congr (s' : State) {port : Port} {f : TxPktFlags} {payload : Buffer}
    (h : encodePacket b port f payload s = .next t) :
    ∃ w, t = s.answerEnc b payload w ∧ encodePacket b port f payload s' = .next (s'.answerEnc b payload w) := by
  obtain ⟨ha, ht⟩ := encodePacket_next h
  exact ⟨_, ht, if_pos ha⟩

theorem encodeCommand_congr (s' : State) {port : Port} {f : TxCmdFlags} {payload : Buffer}
    (h : encodeCommand b port f payload s = .next t) :
    ∃ w, t = s.answerEnc b payload w ∧ encodeCommand b port f payload s' = .next (s'.answerEnc b payload w) := by
  obtain ⟨ha, ht⟩ := encodeCommand_next h
  exact ⟨_, ht, if_pos ha⟩

theorem answerDec_congr {o : DecOutcome} (hfree : s'.busy b = false) (h : answerDec b o s = .next t) :
    ∃ new, new ≠ [] ∧ t = { s with responses := new ++ s.responses } ∧
      answerDec b o s' = .next { s' with responses := new ++ s'.responses } :=
  ⟨[_], by simp, (answerDec_next h).2, State.owned_of_free hfree _⟩

theorem answerFrame_congr {hdr : RxHeader} (hfree : s'.busy b = false) (hbuf : s.buffer b = s'.buffer b)
    (h : answerFrame b hdr s = .next t) :
    ∃ new, new ≠ [] ∧ t = { s with responses := new ++ s.responses } ∧
      answerFrame b hdr s' = .next { s' with responses := new ++ s'.responses } := by
  obtain ⟨-, hle, ht⟩ := answerFrame_next h
  rw [hbuf] at hle ht
  exact ⟨[_], by simp, ht, answerFrame_of_le hfree hle⟩

/-- An operation that `s` answers is answered alike in every state that holds the same bytes in its buffer and has that
buffer free: it grows the buffer to the same bytes and gives them, or gives the same responses and changes nothing
else. -/
theorem exec_next_congr {i : Instr} (hfree : ∀ b, i.buf? = some b → s'.busy b = false)
    (hbuf : ∀ b, i.buf? = some b → s.buffer b = s'.buffer b) (h : exec i s = .next t) :
    (∃ b w, i.buf? = some b ∧ t = s.answerEnc b (s.buffer b) w ∧
      exec i s' = .next (s'.answerEnc b (s.buffer b) w)) ∨
    (∃ new, new ≠ [] ∧ t = { s with responses := new ++ s.responses } ∧
      exec i s' = .next { s' with responses := new ++ s'.responses }) := by
  cases i with
  | encPkt b port flags =>
    simp only [exec, execEncPkt] at h ⊢
    obtain ⟨hk, hk'⟩ := State.owned_congr (hfree b rfl) (hbuf b rfl) h
    obtain ⟨f, rfl, hf⟩ := withPktFlags_next hk
    obtain ⟨w, ht, hw⟩ := encodePacket_congr s' hf
    exact .inl ⟨b, w, rfl, ht, (hk' _).trans hw⟩
  | encCmd b port flags =>
    simp only [exec, execEncCmd] at h ⊢
    obtain ⟨hk, hk'⟩ := State.owned_congr (hfree b rfl) (hbuf b rfl) h
    obtain ⟨f, rfl, hf⟩ := withCmdFlags_next hk
    obtain ⟨w, ht, hw⟩ := encodeCommand_congr s' hf
    exact .inl ⟨b, w, rfl, ht, (hk' _).trans hw⟩
  | encData b f =>
    simp only [exec, execEncData] at h ⊢
    obtain ⟨hk, hk'⟩ := State.owned_congr (hfree b rfl) (hbuf b rfl) h
    obtain ⟨w, ht, hw⟩ := encodePacket_congr s' hk
    exact .inl ⟨b, w, rfl, ht, (hk' _).trans hw⟩
  | decTooShort b n => exact .inr (answerDec_congr (hfree b rfl) h)
  | decBadType b type rest => exact .inr (answerDec_congr (hfree b rfl) h)
  | decDiscard b type rest => exact .inr (answerDec_congr (hfree b rfl) h)
  | decBadPort b type rest => exact .inr (answerDec_congr (hfree b rfl) h)
  | decEvtBadEvt7 b port hi lo => exact .inr (answerDec_congr (hfree b rfl) h)
  | decEvtBadEvt8 b port hi v lo => exact .inr (answerDec_congr (hfree b rfl) h)
  | decOverflow b hdr available => exact .inr (answerDec_congr (hfree b rfl) h)
  | decPkt b hdr => exact .inr (answerFrame_congr (hfree b rfl) (hbuf b rfl) h)
  | decEvt b hdr => exact .inr (answerFrame_congr (hfree b rfl) (hbuf b rfl) h)
  | dispatch o => cases h; exact .inr ⟨[_], by simp, rfl, rfl⟩
  | recv b =>
    simp only [exec, execRecv] at h ⊢
    obtain ⟨hk, hk'⟩ := State.owned_congr (hfree b rfl) (hbuf b rfl) h
    cases hk; exact .inr ⟨[_, _], by simp, rfl, hk' _⟩

end

/-- Settles O44: both states fetch the same operation, and `exec_next_congr` answers it alike in both. -/
theorem responsesDependOnTheRequestAlone : Obligations.ResponsesDependOnTheRequestAlone := by
  intro s s' t r _ hfree hbuf h
  have hown : (s.fetch r).buf? = r.buf? := s.fetch_buf? r
  rw [← State.fetch_congr hbuf]
  obtain ⟨b, w, hb, rfl, h'⟩ | ⟨new, hne, rfl, h'⟩ := exec_next_congr
    (fun b hb => State.busy_of_busyFor hfree (hown ▸ hb)) (fun b hb => hbuf b (hown ▸ hb)) h
  · refine ⟨_, [_], h', by simp, rfl, rfl, fun c a hc => ?_⟩
    obtain rfl : b = c := Option.some.inj (by rw [← hb, hown, hc])
    simp only [State.readByte_eq_buffer, State.answerEnc_buffer]
  · exact ⟨_, new, h', hne, rfl, rfl, fun c a hc => congrArg (·[a]?) (hbuf c hc)⟩

end Sys2Proof.Machine

/-! ## The receive side writes nothing (20_memory.md R38) -/

namespace Sys2Proof.Machine

/-- Settles O43: of the two things an operation can do (`exec_next_cases`), growing a buffer is left to the transmit
side, and the other only gives responses. -/
theorem receiveSideWritesNothing : Obligations.ReceiveSideWritesNothing := by
  intro s t i hrx h
  obtain ⟨b, w, htx, -⟩ | ⟨-, new, hne, rfl⟩ := exec_next_cases h
  · exact nomatch htx.symm.trans hrx
  · exact ⟨fun _ _ => rfl, rfl, rfl, rfl, rfl, new, hne, rfl⟩

end Sys2Proof.Machine

/-! ## Bit fields and the TX command header (30_encoding.md R52 and R55) -/

namespace Sys2Proof

theorem toNat_field (w : Word) (hi lo : Nat) :
    (field w hi lo).toNat = (w.toNat >>> lo) % 2 ^ (hi + 1 - lo) := BitVec.extractLsb'_toNat ..

/-- Settles O5: each field of a TXCMD word is one of its `txCmdWord` laws, and the rounded length fits its 16 bits. -/
theorem txCommandHeaderHasTheBitsOfTxcmd : Obligations.TxCommandHeaderHasTheBitsOfTxcmd := by
  intro port f l hl
  refine ⟨txCmdWord_type .., txCmdWord_port .., txCmdWord_cmdType .., txCmdWord_seq .., ?_⟩
  rw [txCmdWord_length, Machine.alignedLen_toNat hl]

/-- Settles O3: the mask keeps the remainder by `2 ^ (hi - lo + 1)`, which is what a field is. -/
theorem fieldExtractionIsShiftAndMask : Obligations.FieldExtractionIsShiftAndMask := by
  intro w hi lo hle _
  have hwidth : hi + 1 - lo = hi - lo + 1 := Nat.sub_add_comm hle
  rw [toNat_field, hwidth, Nat.and_two_pow_sub_one_eq_mod]
  exact ⟨rfl, Nat.mod_lt _ (Nat.two_pow_pos _)⟩

end Sys2Proof

/-! ## Rounding up to a multiple of four (40_encoder.md R79) -/

namespace Sys2Proof.Machine

/-- A multiple of 4 strictly below `roundUp x 4` would be at least 4 below it, hence below `x`. -/
theorem roundUp_four_le_of_dvd {x m : Nat} (hle : x ≤ m) (hdvd : 4 ∣ m) : roundUp x 4 ≤ m := by
  have hlt := roundUp_four_lt x
  have hmod := roundUp_four_mod x
  omega

/-- Settles O1: `roundUp x 4` is a multiple of 4 in `[x, x + 4)`, which makes it the least one at or above `x`. -/
theorem roundUpIsTheLeastMultipleOfFour : Obligations.RoundUpIsTheLeastMultipleOfFour :=
  ⟨fun x => ⟨le_roundUp_four x, Nat.dvd_of_mod_eq_zero (roundUp_four_mod x), fun _ => roundUp_four_le_of_dvd, rfl,
    roundUp_four x⟩, by decide⟩

end Sys2Proof.Machine

/-! ## The decode request answers DEC (41_decoder.md R96), and what DEC answers -/

namespace Sys2Proof.Machine

/-! ### The codes that pass the checks -/

theorem type_not_reserved : ∀ {c : BitVec 2}, c = 0 ∨ c = 1 → ¬(c = 2 ∨ c = 3) := by decide

/-- The port codes that reach R107: PORT 6 is discarded and PORT 7 is reserved. -/
theorem portCode_le_five_iff : ∀ c : BitVec 3, c.toNat ≤ 5 ↔ c ≠ 6 ∧ c ≠ 7 := by decide

theorem portCode_portOf : ∀ {c : BitVec 3}, c.toNat ≤ 5 → portCode (portOf c) = c := by decide

theorem portOf_of_portOf? {c : BitVec 3} {p : Port} (h : portOf? c = some p) : portOf c = p := by simp [portOf, h]

theorem le_five_of_portOf? {c : BitVec 3} {p : Port} (h : portOf? c = some p) (hp : p ≠ .discard) : c.toNat ≤ 5 :=
  (portCode_le_five_iff c).2
    ⟨fun h6 => hp (Option.some.inj (h.symm.trans ((portOf?_discard_iff c).2 h6))),
      fun h7 => nomatch h.symm.trans ((portOf?_none_iff c).2 h7)⟩

theorem eventCode_eventOf : ∀ {c : BitVec 4}, c.toNat ≤ 6 → eventCode (eventOf c) = c := by decide

theorem eventOf_of_eventOf? {c : BitVec 4} {e : EventType} (h : eventOf? c = some e) : eventOf c = e := by
  simp [eventOf, h]

theorem le_six_of_eventOf? {c : BitVec 4} {e : EventType} (h : eventOf? c = some e) : c.toNat ≤ 6 := by
  by_contra hv
  exact nomatch h.symm.trans ((eventOf?_eq_none_iff c).2 (by omega))

/-! ### The outcome of DEC, check by check -/

/-- A header word that passes every check of R96 on the word alone: TYPE, PORT and, for an event, EventType. -/
def HeaderPasses (h : Word) : Prop :=
  (field h 31 30 = 0 ∨ field h 31 30 = 1 ∧ (field h 23 20).toNat ≤ 6) ∧ (field h 29 27).toNat ≤ 5

/-- The frame DEC gives for a header word and its payload bytes (41_decoder.md R106, R107). -/
def frameOfWord (h : Word) (slice : Buffer) : DecodedFrame where
  port           := portOf (field h 29 27)
  declaredLength := field h 13 0
  flags          := rxFlagsOf (field h 31 30) h
  payloadSlice   := slice
  headerWord     := h

section
variable {h : Word} {buf : Buffer}

theorem HeaderPasses.type (hp : HeaderPasses h) : field h 31 30 = 0 ∨ field h 31 30 = 1 := hp.1.imp_right And.left

/-- The checks as DEC makes them: none of its four rejections applies. -/
theorem headerPasses_iff : HeaderPasses h ↔
    ¬(field h 31 30 = 2 ∨ field h 31 30 = 3) ∧ field h 29 27 ≠ 6 ∧ field h 29 27 ≠ 7 ∧
      ¬(field h 31 30 = 1 ∧ 7 ≤ (field h 23 20).toNat) := by
  have htype : ∀ (t : BitVec 2) (v : BitVec 4), (t = 0 ∨ t = 1 ∧ v.toNat ≤ 6) ↔
      ¬(t = 2 ∨ t = 3) ∧ ¬(t = 1 ∧ 7 ≤ v.toNat) := by decide
  rw [HeaderPasses, htype (field h 31 30) (field h 23 20), portCode_le_five_iff (field h 29 27)]
  tauto

theorem decWord_of_badType (ht : field h 31 30 = 2 ∨ field h 31 30 = 3) :
    decWord h buf = .err (.unrecognized .type (field h 31 30).toNat) := if_pos ht

theorem decWord_of_discard (ht : field h 31 30 = 0 ∨ field h 31 30 = 1) (hp : field h 29 27 = 6) :
    decWord h buf = .discard h := (if_neg (type_not_reserved ht)).trans (if_pos hp)

theorem decWord_of_badPort (ht : field h 31 30 = 0 ∨ field h 31 30 = 1) (hp : field h 29 27 = 7) :
    decWord h buf = .err (.unrecognized .port 7) :=
  have h6 : field h 29 27 ≠ 6 := fun h6 => nomatch hp.symm.trans h6
  (if_neg (type_not_reserved ht)).trans ((if_neg h6).trans (if_pos hp))

theorem decWord_of_badEvent (ht : field h 31 30 = 1) (hp : (field h 29 27).toNat ≤ 5)
    (hv : 7 ≤ (field h 23 20).toNat) :
    decWord h buf = .err (.unrecognized .eventType (field h 23 20).toNat) :=
  have ⟨h6, h7⟩ := (portCode_le_five_iff (field h 29 27)).1 hp
  (if_neg (type_not_reserved (.inr ht))).trans ((if_neg h6).trans ((if_neg h7).trans (if_pos ⟨ht, hv⟩)))

theorem decWord_of_overflow (hp : HeaderPasses h) (hlt : buf.length < 4 + (field h 13 0).toNat) :
    decWord h buf = .err (.lengthOverflow (field h 13 0) (buf.length - 4)) := by
  obtain ⟨ht, h6, h7, hv⟩ := headerPasses_iff.1 hp
  simp only [decWord, if_neg ht, if_neg h6, if_neg h7, if_neg hv, memRead_of_lt hlt]

theorem decWord_of_frame (hp : HeaderPasses h) (hle : 4 + (field h 13 0).toNat ≤ buf.length) :
    decWord h buf = .ok (frameOfWord h ((buf.drop 4).take (field h 13 0).toNat)) := by
  obtain ⟨ht, h6, h7, hv⟩ := headerPasses_iff.1 hp
  simp only [decWord, if_neg ht, if_neg h6, if_neg h7, if_neg hv, memRead_of_le hle, frameOfWord]

/-- DEC gives a frame only for a header that passes every check, whose declared bytes are in the buffer. -/
theorem decWord_eq_ok {f : DecodedFrame} (hf : decWord h buf = .ok f) :
    HeaderPasses h ∧ 4 + (field h 13 0).toNat ≤ buf.length ∧
      f = frameOfWord h ((buf.drop 4).take (field h 13 0).toNat) := by
  have hp : HeaderPasses h := by
    simp only [decWord] at hf
    split_ifs at hf with ht h6 h7 hv
    exact headerPasses_iff.2 ⟨ht, h6, h7, hv⟩
  have hle : 4 + (field h 13 0).toNat ≤ buf.length := by
    by_contra hlt
    exact nomatch (decWord_of_overflow hp (Nat.lt_of_not_le hlt)).symm.trans hf
  rw [decWord_of_frame hp hle] at hf
  exact ⟨hp, hle, (DecOutcome.ok.inj hf).symm⟩

/-- 41_decoder.md R106: the flags DEC reads are those of the word's TYPE. -/
theorem flagsOfHeader_rxFlagsOf (hp : HeaderPasses h) : FlagsOfHeader h (rxFlagsOf (field h 31 30) h) := by
  refine ⟨fun h0 => by rw [h0]; rfl, fun h1 => ⟨eventOf (field h 23 20), ?_, by rw [h1]; rfl⟩⟩
  obtain h0 | ⟨-, hv⟩ := hp.1
  · exact nomatch h0.symm.trans h1
  · exact eventCode_eventOf hv

theorem typeCode_rxFlagsOf (ht : field h 31 30 = 0 ∨ field h 31 30 = 1) :
    typeCode (rxFlagsOf (field h 31 30) h).transferType = field h 31 30 := by
  obtain h0 | h1 := ht
  · rw [h0]; rfl
  · rw [h1]; rfl

/-- Every frame DEC gives is the frame of a header word that passes its checks. -/
theorem dec_eq_ok {f : DecodedFrame} (hf : dec buf = .ok f) :
    ∃ h slice, HeaderPasses h ∧ f = frameOfWord h slice := by
  unfold dec at hf
  split at hf
  · obtain ⟨hp, -, rfl⟩ := decWord_eq_ok hf
    exact ⟨_, _, hp, rfl⟩
  · cases hf

end

/-! ### The rows answer DEC -/

/-- The frame of the packet header read from a word is the frame DEC gives for the word. -/
theorem frameOf_pkt {h : Word} {p : Port} (ht : field h 31 30 = 0) (hp : portOf? (field h 29 27) = some p)
    (slice : Buffer) :
    frameOf (.pkt ⟨p, rxPktFlagsOf h, field h 15 14, field h 13 0⟩) slice = frameOfWord h slice := by
  have hw := rxPktWord_field h p ht (portCode_of_portOf? _ _ hp)
  simp only [frameOf, RxHeader.port, RxHeader.length, RxHeader.flags, RxHeader.word, hw, frameOfWord, ht,
    portOf_of_portOf? hp]
  rfl

/-- The frame of the event header read from a word is the frame DEC gives for the word. -/
theorem frameOf_evt {h : Word} {p : Port} {e : EventType} (ht : field h 31 30 = 1)
    (hp : portOf? (field h 29 27) = some p) (he : eventOf? (field h 23 20) = some e) (slice : Buffer) :
    frameOf (.evt ⟨p, rxEvtFlagsOf h e, field h 14 14, field h 13 0⟩) slice = frameOfWord h slice := by
  have hw := rxEvtWord_field h p e ht (portCode_of_portOf? _ _ hp) (eventCode_of_eventOf? _ _ he)
  obtain rfl := eventOf_of_eventOf? he
  simp only [frameOf, RxHeader.port, RxHeader.length, RxHeader.flags, RxHeader.word, hw, frameOfWord, ht,
    portOf_of_portOf? hp]
  rfl

section
variable {s : State} {b : BufId} {h : Word} {n : Nat}

theorem answerDec_of_free (hb : s.busy b = false) (o : DecOutcome) :
    answerDec b o s = .next (s.respond (.dec o)) := State.owned_of_free hb _

/-- An operation on a buffer that another operation owns is refused, whichever it is (20_memory.md R45). -/
theorem exec_of_busy {i : Instr} (hi : i.buf? = some b) (hb : s.busy b = true) : exec i s = .refused .bufferBusy := by
  cases i with
  | dispatch o => cases hi
  | _ => cases hi; exact if_pos hb

/-- Behind the checks of the word one comparison is left, of D with the bytes that are there: it chooses between the
overflow row and the frame row as DEC does. -/
theorem answer_of_headerPasses (hb : s.busy b = false) (hn : (s.buffer b).length = n + 4) {hdr : RxHeader}
    (hp : HeaderPasses h) (hlen : hdr.length = field h 13 0) (hf : ∀ slice, frameOf hdr slice = frameOfWord h slice) :
    (if n < hdr.length.toNat then answerDec b (.err (.lengthOverflow hdr.length n)) s else answerFrame b hdr s) =
      .next (s.respond (.dec (decWord h (s.buffer b)))) := by
  split_ifs with hlt
  · have hover : (s.buffer b).length < 4 + (field h 13 0).toNat := by rw [← hlen]; omega
    rw [answerDec_of_free hb, decWord_of_overflow hp hover, hn, hlen, Nat.add_sub_cancel]
  · have hfits : 4 + hdr.length.toNat ≤ (s.buffer b).length := by omega
    rw [answerFrame_of_le hb hfits, decWord_of_frame hp (hlen ▸ hfits), hf, hlen]

theorem exec_decodeRxPkt (hb : s.busy b = false) (hn : (s.buffer b).length = n + 4) {p : Port}
    (ht : field h 31 30 = 0) (hp : portOf? (field h 29 27) = some p) (hd : p ≠ .discard) :
    exec (decodeRxPkt b p h n) s = .next (s.respond (.dec (decWord h (s.buffer b)))) := by
  rw [decodeRxPkt, apply_ite (exec · s)]
  exact answer_of_headerPasses hb hn ⟨.inl ht, le_five_of_portOf? hp hd⟩ rfl (frameOf_pkt ht hp)

theorem exec_decodeRxEvt (hb : s.busy b = false) (hn : (s.buffer b).length = n + 4) {p : Port}
    (ht : field h 31 30 = 1) (hp : portOf? (field h 29 27) = some p) (hd : p ≠ .discard) :
    exec (decodeRxEvt b p h n) s = .next (s.respond (.dec (decWord h (s.buffer b)))) := by
  have h5 := le_five_of_portOf? hp hd
  unfold decodeRxEvt
  split
  · next he =>
    have hv := (eventOf?_eq_none_iff _).1 he
    rw [decWord_of_badEvent ht h5 hv]
    split_ifs with h23
    · rw [← badEvt8Code_field h h23]; exact answerDec_of_free hb _
    · rw [eventField_eq_seven h (by simpa using h23) hv]; exact answerDec_of_free hb _
  · next e he =>
    rw [apply_ite (exec · s)]
    exact answer_of_headerPasses hb hn ⟨.inr ⟨ht, le_six_of_eventOf? he⟩, h5⟩ rfl (frameOf_evt ht hp he)

/-- The row of a header word answers what DEC makes of the word: each row's condition is one check of R96. -/
theorem exec_decodeRxWord (hb : s.busy b = false) (hn : (s.buffer b).length = n + 4) :
    exec (decodeRxWord b h n) s = .next (s.respond (.dec (decWord h (s.buffer b)))) := by
  have htype : ∀ t, typeOf? (field h 31 30) = some t → field h 31 30 = 0 ∨ field h 31 30 = 1
    | .packet, ht => .inl ((typeOf?_packet_iff _).1 ht)
    | .command, ht => .inr ((typeOf?_command_iff _).1 ht)
  unfold decodeRxWord
  split
  · next ht =>
    rw [decWord_of_badType ((typeOf?_none_iff _).1 ht)]
    exact answerDec_of_free hb _
  · next t ht hp =>
    have h6 := (portOf?_discard_iff _).1 hp
    have hw : portWord t 6 (field h 26 0) = h := h6 ▸ portWord_field h t (typeCode_of_typeOf? _ _ ht)
    rw [decWord_of_discard (htype t ht) h6]
    exact (answerDec_of_free hb _).trans (by rw [hw])
  · next t ht hp =>
    rw [decWord_of_badPort (htype t ht) ((portOf?_none_iff _).1 hp)]
    exact answerDec_of_free hb _
  · next p hd ht hp => exact exec_decodeRxPkt hb hn ((typeOf?_packet_iff _).1 ht) hp hd
  · next p hd ht hp => exact exec_decodeRxEvt hb hn ((typeOf?_command_iff _).1 ht) hp hd

theorem length_lt_four_of_ne_cons : ∀ {buf : Buffer},
    (∀ b0 b1 b2 b3 rest, buf = b0 :: b1 :: b2 :: b3 :: rest → False) → buf.length < 4
  | [], _ | [_], _ | [_, _], _ | [_, _, _], _ => by simp
  | _ :: _ :: _ :: _ :: _, h => (h _ _ _ _ _ rfl).elim

/-- A decode request on a free buffer answers DEC of the buffer's bytes and changes nothing else. -/
theorem exec_fetch_decode (hb : s.busy b = false) :
    exec (s.fetch (.decode b)) s = .next (s.respond (.dec (dec (s.buffer b)))) := by
  unfold State.fetch decodeRx
  dsimp only
  split
  · next b0 b1 b2 b3 rest hbuf =>
    rw [exec_decodeRxWord hb (by simp [hbuf]), hbuf, dec_cons]
  · next hshort =>
    rw [dec_of_short (length_lt_four_of_ne_cons hshort)]
    exact answerDec_of_free hb _

/-- The same for a buffer that holds a header word: the outcome is what DEC makes of the word. -/
theorem exec_fetch_decode_cons (hb : s.busy b = false) {b0 b1 b2 b3 : Byte} {rest : Buffer}
    (hbuf : s.buffer b = b0 :: b1 :: b2 :: b3 :: rest) :
    exec (s.fetch (.decode b)) s = .next (s.respond (.dec (decWord (fromLe32 b0 b1 b2 b3) (s.buffer b)))) := by
  rw [exec_fetch_decode hb, hbuf, dec_cons]

/-- A decode request is answered only where its buffer is free, hence with DEC of the buffer's bytes. -/
theorem exec_fetch_decode_next {t : State} (hexec : exec (s.fetch (.decode b)) s = .next t) :
    t = s.respond (.dec (dec (s.buffer b))) := by
  cases hb : s.busy b with
  | false => exact (Host.Outcome.next.inj ((exec_fetch_decode hb).symm.trans hexec)).symm
  | true => exact nomatch (exec_of_busy (s.fetch_buf? (.decode b)) hb).symm.trans hexec

end

/-! ### The decoder's statements -/

/-- Settles O24: a buffer of fewer than 4 bytes has no header to read. -/
theorem shortBuffersDecodeToTooShort : Obligations.ShortBuffersDecodeToTooShort :=
  ⟨fun _ _ _ hb => answerDec_of_free hb _, fun _ _ hb hlt => by rw [exec_fetch_decode hb, dec_of_short hlt]; rfl⟩

/-- Settles O27: PORT is checked right after TYPE, before any other field is looked at. -/
theorem reservedPortDecodesToUnrecognizedPort : Obligations.ReservedPortDecodesToUnrecognizedPort := by
  refine ⟨fun _ _ _ _ hb => answerDec_of_free hb _, ?_⟩
  intro s b b0 b1 b2 b3 rest hb hbuf h ht hp
  rw [exec_fetch_decode_cons hb hbuf, decWord_of_badPort ht hp]
  rfl

/-- Settles O29: behind the checks of the word, DEC compares the declared length with the bytes that are there. -/
theorem overlongLengthDecodesToLengthOverflow : Obligations.OverlongLengthDecodesToLengthOverflow := by
  refine ⟨fun _ _ _ _ hb => answerDec_of_free hb _, ?_⟩
  intro s b b0 b1 b2 b3 rest hb hbuf h ht hp hlt
  rw [exec_fetch_decode_cons hb hbuf, decWord_of_overflow ⟨ht, hp⟩ (by omega)]
  rfl

/-- Settles O30: both frame rows read their D payload bytes, and DEC of a header that passes every check is the frame
of its word, of which each field is then read off. -/
theorem checkedHeadersDecodeToTheFrame : Obligations.CheckedHeadersDecodeToTheFrame := by
  refine ⟨fun s b hdr hb hle => answerFrame_of_le (hdr := .pkt hdr) hb hle,
    fun s b hdr hb hle => answerFrame_of_le (hdr := .evt hdr) hb hle, ?_⟩
  intro s b b0 b1 b2 b3 rest hb hbuf h ht hp hle
  have hpass : HeaderPasses h := ⟨ht, hp⟩
  have hlen : (s.buffer b).length = rest.length + 4 := by simp [hbuf]
  have hdrop : (s.buffer b).drop 4 = rest := by rw [hbuf]; rfl
  have hrest : (field h 13 0).toNat ≤ rest.length := by omega
  refine ⟨frameOfWord h (rest.take (field h 13 0).toNat), ?_, portCode_portOf hp, typeCode_rxFlagsOf hpass.type, rfl,
    flagsOfHeader_rxFlagsOf hpass, rfl, List.length_take_of_le hrest, rfl⟩
  rw [exec_fetch_decode_cons hb hbuf, decWord_of_frame hpass (by omega), hdrop]
  rfl

/-- Settles O31: a decode request that was answered was answered with DEC of its buffer, and a frame of DEC is the frame
of a header word that passed the checks. -/
theorem frameFlagsAreTheHeaderBits : Obligations.FrameFlagsAreTheHeaderBits := by
  intro s t b f hexec hresp
  obtain rfl := exec_fetch_decode_next hexec
  obtain ⟨h, slice, hpass, rfl⟩ := dec_eq_ok (Response.dec.inj (List.head_eq_of_cons_eq hresp))
  exact ⟨hpass.type, flagsOfHeader_rxFlagsOf hpass⟩

end Sys2Proof.Machine

/-! ## The dispatcher (42_dispatcher.md) -/

namespace Sys2Proof.Machine

@[simp] theorem route_err (e : DecodeError) : route (.err e) = .drop (.decodeFailed e) := rfl

@[simp] theorem route_discard (h : Word) : route (.discard h) = .drop (.discardPort h) := rfl

/-- DISPATCH owns no buffer: in every state it answers the outcome's route and changes nothing else. -/
theorem exec_dispatch (o : DecOutcome) (s : State) :
    exec (.dispatch o) s = .next { s with responses := .route (route o) :: s.responses } := rfl

/-- Settles O38: DISPATCH answers the outcome's route, which for an error and for a Discard outcome is the drop of R116
and of R117. -/
theorem errorsAndDiscardFramesAreDropped : Obligations.ErrorsAndDiscardFramesAreDropped := by
  constructor
  · intro s e
    rw [exec_dispatch, route_err]
  · intro s h
    rw [exec_dispatch, route_discard]

end Sys2Proof.Machine

/-! ## Decode and encode agree on the receive rows (41_decoder.md R96) -/

namespace Sys2Proof

/-! ### The row of a header word, check by check -/

section
variable {b : BufId} {h : Word} {n : Nat}

theorem decodeRxWord_of_badType (ht : field h 31 30 = 2 ∨ field h 31 30 = 3) :
    decodeRxWord b h n = .decBadType b (field h 31 30) (field h 29 0) := by
  simp only [decodeRxWord, (typeOf?_none_iff _).2 ht]

theorem decodeRxWord_of_discard {t : TransferType} (ht : typeOf? (field h 31 30) = some t)
    (hp : field h 29 27 = 6) : decodeRxWord b h n = .decDiscard b t (field h 26 0) := by
  simp only [decodeRxWord, ht, (portOf?_discard_iff _).2 hp]

theorem decodeRxWord_of_badPort {t : TransferType} (ht : typeOf? (field h 31 30) = some t)
    (hp : field h 29 27 = 7) : decodeRxWord b h n = .decBadPort b t (field h 26 0) := by
  simp only [decodeRxWord, ht, (portOf?_none_iff _).2 hp]

theorem decodeRxWord_of_packet {p : Port} (ht : typeOf? (field h 31 30) = some .packet)
    (hp : portOf? (field h 29 27) = some p) (hd : p ≠ .discard) :
    decodeRxWord b h n = decodeRxPkt b p h n := by
  cases p with
  | discard => exact absurd rfl hd
  | _ => simp only [decodeRxWord, ht, hp]

theorem decodeRxWord_of_event {p : Port} (ht : typeOf? (field h 31 30) = some .command)
    (hp : portOf? (field h 29 27) = some p) (hd : p ≠ .discard) :
    decodeRxWord b h n = decodeRxEvt b p h n := by
  cases p with
  | discard => exact absurd rfl hd
  | _ => simp only [decodeRxWord, ht, hp]

end

/-! ### The row of an assembled word -/

section
variable (b : BufId) (n : Nat)

theorem decodeRxWord_badTypeWord {t : BitVec 2} (ht : t = 2 ∨ t = 3) (rest : BitVec 30) :
    decodeRxWord b (badTypeWord t rest) n = .decBadType b t rest := by
  rw [decodeRxWord_of_badType (by rwa [badTypeWord_type]), badTypeWord_type, badTypeWord_rest]

theorem decodeRxWord_portWord_discard (t : TransferType) (rest : BitVec 27) :
    decodeRxWord b (portWord t 6 rest) n = .decDiscard b t rest := by
  rw [decodeRxWord_of_discard (t := t) (by simp) (portWord_port ..), portWord_rest]

theorem decodeRxWord_portWord_reserved (t : TransferType) (rest : BitVec 27) :
    decodeRxWord b (portWord t 7 rest) n = .decBadPort b t rest := by
  rw [decodeRxWord_of_badPort (t := t) (by simp) (portWord_port ..), portWord_rest]

theorem decodeRxWord_evtCodeWord {p : Port} (hd : p ≠ .discard) (hi : BitVec 3) (v : BitVec 4) (lo : BitVec 20) :
    decodeRxWord b (evtCodeWord p hi v lo) n = decodeRxEvt b p (evtCodeWord p hi v lo) n :=
  decodeRxWord_of_event (by simp) (by simp) hd

theorem badEvt8Code_getLsbD_three : ∀ v : BitVec 3, (badEvt8Code v).getLsbD 3 = true := by decide

theorem badEvt8Code_setWidth : ∀ v : BitVec 3, (badEvt8Code v).setWidth 3 = v := by decide

theorem badEvt8Code_toNat : ∀ v : BitVec 3, (badEvt8Code v).toNat = 8 + v.toNat := by decide

theorem eventOf?_badEvt8Code : ∀ v : BitVec 3, eventOf? (badEvt8Code v) = none := by decide

/-- Bit 3 of a reserved EventType code chooses between the two rows, and the other three are kept. -/
theorem decodeRxEvt_evtCodeWord {v : BitVec 4} (hv : eventOf? v = none) (p : Port) (hi : BitVec 3) (lo : BitVec 20) :
    decodeRxEvt b p (evtCodeWord p hi v lo) n =
      if v.getLsbD 3 then .decEvtBadEvt8 b p hi (v.setWidth 3) lo else .decEvtBadEvt7 b p hi lo := by
  simp only [decodeRxEvt, evtCodeWord_event, hv, evtCodeWord_bit23, evtCodeWord_hi, evtCodeWord_eventLow,
    evtCodeWord_lo]

theorem decodeRxWord_evtCodeWord_seven {p : Port} (hd : p ≠ .discard) (hi : BitVec 3) (lo : BitVec 20) :
    decodeRxWord b (evtCodeWord p hi 7 lo) n = .decEvtBadEvt7 b p hi lo := by
  rw [decodeRxWord_evtCodeWord b n hd, decodeRxEvt_evtCodeWord b n rfl]
  exact if_neg (by decide)

theorem decodeRxWord_evtCodeWord_eight {p : Port} (hd : p ≠ .discard) (hi v : BitVec 3) (lo : BitVec 20) :
    decodeRxWord b (evtCodeWord p hi (badEvt8Code v) lo) n = .decEvtBadEvt8 b p hi v lo := by
  rw [decodeRxWord_evtCodeWord b n hd, decodeRxEvt_evtCodeWord b n (eventOf?_badEvt8Code v),
    if_pos (badEvt8Code_getLsbD_three v), badEvt8Code_setWidth]

/-- A packet header's word decodes to that header: its overflow row or its frame row, by the bytes that are there. -/
theorem decodeRxWord_rxPktWord {hdr : RxPktHeader} (hd : hdr.port ≠ .discard) :
    decodeRxWord b (rxPktWord hdr) n =
      if n < hdr.length.toNat then .decOverflow b (.pkt hdr) n else .decPkt b hdr := by
  rw [decodeRxWord_of_packet (by simp) (by simp) hd]
  simp [decodeRxPkt]

/-- An event header's word decodes to that header: its overflow row or its frame row, by the bytes that are there. -/
theorem decodeRxWord_rxEvtWord {hdr : RxEvtHeader} (hd : hdr.port ≠ .discard) :
    decodeRxWord b (rxEvtWord hdr) n =
      if n < hdr.length.toNat then .decOverflow b (.evt hdr) n else .decEvt b hdr := by
  rw [decodeRxWord_of_event (by simp) (by simp) hd]
  simp [decodeRxEvt]

theorem decodeRxWord_overflow {hdr : RxHeader} (hd : hdr.port ≠ .discard) (hlt : n < hdr.length.toNat) :
    decodeRxWord b hdr.word n = .decOverflow b hdr n := by
  cases hdr with
  | pkt hdr => exact (decodeRxWord_rxPktWord b n hd).trans (if_pos hlt)
  | evt hdr => exact (decodeRxWord_rxEvtWord b n hd).trans (if_pos hlt)

end

@[simp] theorem zeros_length (k : Nat) : (zeros k).length = k := List.length_replicate

theorem decodeRx_of_short (b : BufId) {buf : Buffer} (h : buf.length < 4) :
    decodeRx b buf = .decTooShort b buf.length := by
  match buf, h with
  | [], _ | [_], _ | [_, _], _ | [_, _, _], _ => rfl

/-- The bytes of a row with a header word decode as the word does, with the row's own tail behind it. -/
theorem decode_rx_word_tail {b : BufId} {i : Instr} {a : BitVec 16} {w : Word} (hw : i.word? a = some w)
    (hi : decodeRxWord b w i.tail = i) : ∃ bytes, encode i a = some bytes ∧ decode .rx b bytes = .ok i := by
  refine ⟨le32 w ++ zeros i.tail, ?_, ?_⟩
  · cases i with
    | decTooShort b n => cases hw
    | _ => simp only [encode, hw, Option.map_some]
  · rw [decode, decodeRx_le32, zeros_length, hi]

/-- Settles O9: each row's word is read back by its own `decodeRxWord` equation, and DEC.TOOSHORT's bytes by their
number. -/
theorem decodeOfEncodeOnReceiveRows : Obligations.DecodeOfEncodeOnReceiveRows := by
  intro i b a hwf hrx hb hrecv
  cases i with
  | encPkt | encCmd | encData => cases hrx
  | dispatch o => cases hb
  | recv b' => cases hb; exact absurd rfl hrecv
  | decTooShort b' n =>
    cases hb
    have hn : n < 4 := by simpa [Instr.wellFormed] using hwf
    exact ⟨zeros n, rfl, by rw [decode, decodeRx_of_short b (by simpa using hn), zeros_length]⟩
  | decBadType b' t rest =>
    cases hb
    exact decode_rx_word_tail rfl (decodeRxWord_badTypeWord b _ (by simpa [Instr.wellFormed] using hwf) rest)
  | decDiscard b' t rest => cases hb; exact decode_rx_word_tail rfl (decodeRxWord_portWord_discard b _ t rest)
  | decBadPort b' t rest => cases hb; exact decode_rx_word_tail rfl (decodeRxWord_portWord_reserved b _ t rest)
  | decEvtBadEvt7 b' p hi lo =>
    cases hb
    exact decode_rx_word_tail rfl (decodeRxWord_evtCodeWord_seven b _ (by simpa [Instr.wellFormed] using hwf) hi lo)
  | decEvtBadEvt8 b' p hi v lo =>
    cases hb
    exact decode_rx_word_tail rfl (decodeRxWord_evtCodeWord_eight b _ (by simpa [Instr.wellFormed] using hwf) hi v lo)
  | decOverflow b' hdr available =>
    cases hb
    obtain ⟨hd, hlt⟩ : hdr.port ≠ .discard ∧ available < hdr.length.toNat := by
      simpa [Instr.wellFormed] using hwf
    exact decode_rx_word_tail rfl (decodeRxWord_overflow b _ hd hlt)
  | decPkt b' hdr =>
    cases hb
    have hd : hdr.port ≠ .discard := by simpa [Instr.wellFormed] using hwf
    exact decode_rx_word_tail rfl ((decodeRxWord_rxPktWord b _ hd).trans (if_neg (Nat.lt_irrefl _)))
  | decEvt b' hdr =>
    cases hb
    have hd : hdr.port ≠ .discard := by simpa [Instr.wellFormed] using hwf
    exact decode_rx_word_tail rfl ((decodeRxWord_rxEvtWord b _ hd).trans (if_neg (Nat.lt_irrefl _)))

end Sys2Proof

/-! ## Decode and encode agree on the transmit rows (30_encoding.md sections 1 to 3) -/

namespace Sys2Proof

/-! ### The layout a TX word's TYPE selects -/

theorem layoutOf?_tx_none_iff : ∀ c : BitVec 2, layoutOf? .tx c = none ↔ (c = 2 ∨ c = 3) := by decide

theorem layoutOf?_tx_txCmd_iff : ∀ c : BitVec 2, layoutOf? .tx c = some .txCmd ↔ c = 1 := by decide

theorem layoutOf?_tx_eq_some : ∀ {c : BitVec 2} {l : Layout}, layoutOf? .tx c = some l →
    c = 0 ∧ l = .txPkt ∨ c = 1 ∧ l = .txCmd := by
  intro c l; cases l <;> revert c <;> decide

/-! ### What the TX decoder reads -/

section
variable {b : BufId} {h : Word}

theorem decodeTxWord_of_reservedType (ht : field h 31 30 = 2 ∨ field h 31 30 = 3) :
    decodeTxWord b h = .error .reservedType := by
  simp only [decodeTxWord, (layoutOf?_tx_none_iff _).2 ht]

theorem decodeTxWord_of_reservedPort (ht : field h 31 30 = 0 ∨ field h 31 30 = 1) (hp : field h 29 27 = 7) :
    decodeTxWord b h = .error .reservedPort := by
  obtain ⟨l, hl⟩ : ∃ l, layoutOf? .tx (field h 31 30) = some l := by
    obtain h0 | h1 := ht
    · exact ⟨_, by rw [h0]; rfl⟩
    · exact ⟨_, by rw [h1]; rfl⟩
  simp only [decodeTxWord, hl, (portOf?_none_iff _).2 hp]

theorem decodeTxWord_of_packet {p : Port} (hp : portOf? (field h 29 27) = some p) (h0 : field h 1 0 = 0)
    (ht : field h 31 30 = 0)
    (hbits : h.getLsbD 18 = false ∧ h.getLsbD 22 = false ∧ h.getLsbD 23 = false) :
    decodeTxWord b h = .ok (.encPkt b p (.pktTx (txPktFlagsOf h))) := by
  obtain ⟨h18, h22, h23⟩ := hbits
  have hl : layoutOf? .tx (field h 31 30) = some .txPkt := by rw [ht]; rfl
  simp only [decodeTxWord, hl, hp, h0, h18, h22, h23]
  rfl

theorem decodeTxWord_of_command {p : Port} (hp : portOf? (field h 29 27) = some p) (h0 : field h 1 0 = 0)
    (ht : field h 31 30 = 1) : decodeTxWord b h = .ok (.encCmd b p (.cmdTx (txCmdFlagsOf h))) := by
  simp [decodeTxWord, (layoutOf?_tx_txCmd_iff _).2 ht, hp, h0]

/-- What a word that is read passed: a port other than the reserved code, a Length that is a multiple of 4, and the
layout of a command, or of a packet with its reserved bits 0. -/
theorem decodeTxWord_eq_ok {i : Instr} (hi : decodeTxWord b h = .ok i) :
    ∃ p, portOf? (field h 29 27) = some p ∧ field h 1 0 = 0 ∧
      (field h 31 30 = 0 ∧ (h.getLsbD 18 = false ∧ h.getLsbD 22 = false ∧ h.getLsbD 23 = false) ∧
          i = .encPkt b p (.pktTx (txPktFlagsOf h)) ∨
        field h 31 30 = 1 ∧ i = .encCmd b p (.cmdTx (txCmdFlagsOf h))) := by
  unfold decodeTxWord at hi
  split at hi
  · cases hi
  · cases hi
  · next l p hl hp =>
    split_ifs at hi with hlow hcmd hbits
    · subst hcmd
      cases hi
      exact ⟨p, hp, not_not.1 hlow, .inr ⟨(layoutOf?_tx_txCmd_iff _).1 hl, rfl⟩⟩
    · cases hi
      obtain ⟨ht, -⟩ | ⟨-, hcmd'⟩ := layoutOf?_tx_eq_some hl
      · exact ⟨p, hp, not_not.1 hlow, .inl ⟨ht, by simpa [and_assoc] using hbits, rfl⟩⟩
      · exact absurd hcmd' hcmd

end

/-- A Length that is a multiple of 4 has its two low bits clear. -/
theorem setWidth_two_of_mod_four {a : BitVec 16} (h : a.toNat % 4 = 0) : a.setWidth 2 = 0 := by
  apply BitVec.eq_of_toNat_eq
  simpa using h

theorem decode_tx_le32 (b : BufId) (w : Word) : decode .tx b (le32 w) = decodeTxWord b w :=
  congrArg (decodeTxWord b) (fromLe32_le32 w)

theorem decodeTxWord_txPktWord (b : BufId) (p : Port) (f : TxPktFlags) {a : BitVec 16} (ha : a.toNat % 4 = 0) :
    decodeTxWord b (txPktWord p f a) = .ok (.encPkt b p (.pktTx f)) := by
  rw [decodeTxWord_of_packet (p := p) (by simp) (by rw [txPktWord_low2, setWidth_two_of_mod_four ha])
    (txPktWord_type ..) ⟨txPktWord_bit18 .., txPktWord_bit22 .., txPktWord_bit23 ..⟩, txPktFlagsOf_txPktWord]

theorem decodeTxWord_txCmdWord (b : BufId) (p : Port) (f : TxCmdFlags) {a : BitVec 16} (ha : a.toNat % 4 = 0) :
    decodeTxWord b (txCmdWord p f a) = .ok (.encCmd b p (.cmdTx f)) := by
  rw [decodeTxWord_of_command (p := p) (by simp) (by rw [txCmdWord_low2, setWidth_two_of_mod_four ha])
    (txCmdWord_type ..), txCmdFlagsOf_txCmdWord]

/-- Settles O10: a TX word's two low bits are those of its Length, so it passes the decoder's checks, and its fields are
its row's operands. -/
theorem decodeOfEncodeOnTransmitRows : Obligations.DecodeOfEncodeOnTransmitRows := by
  intro i b a hwf htx hb ha
  cases i with
  | encPkt b' p flags =>
    cases hb
    cases flags with
    | pktTx f =>
      exact ⟨_, rfl, rfl, (decode_tx_le32 b _).trans (decodeTxWord_txPktWord b p f ha), txPktWord_length p f a⟩
    | cmdTx f => cases hwf
  | encCmd b' p flags =>
    cases hb
    cases flags with
    | cmdTx f =>
      exact ⟨_, rfl, rfl, (decode_tx_le32 b _).trans (decodeTxWord_txCmdWord b p f ha), txCmdWord_length p f a⟩
    | pktTx f => cases hwf
  | encData b' f =>
    cases hb
    exact ⟨_, rfl, rfl, (decode_tx_le32 b _).trans (decodeTxWord_txPktWord b .wlanPort f ha),
      txPktWord_length .wlanPort f a⟩
  | _ => cases htx

/-- Settles O14: the first two checks of the TX decoder are TYPE and PORT, and a word is read exactly where none of its
checks applies. -/
theorem transmitDecoderRejectsReservedAndUnroundedWords :
    Obligations.TransmitDecoderRejectsReservedAndUnroundedWords := by
  intro b w
  refine ⟨decodeTxWord_of_reservedType, decodeTxWord_of_reservedPort, ?_, ?_⟩
  · rintro ⟨i, hi⟩
    obtain ⟨p, hp, hlow, hrow⟩ := decodeTxWord_eq_ok hi
    have h7 : field w 29 27 ≠ 7 := fun h7 => nomatch hp.symm.trans ((portOf?_none_iff _).2 h7)
    exact ⟨hrow.imp (fun ⟨ht, hbits, _⟩ => ⟨ht, hbits⟩) And.left, h7, hlow⟩
  · rintro ⟨hrow, h7, hlow⟩
    obtain ⟨p, hp⟩ := Option.ne_none_iff_exists'.1 (mt (portOf?_none_iff _).1 h7)
    obtain ⟨ht, hbits⟩ | ht := hrow
    · exact ⟨_, decodeTxWord_of_packet hp hlow ht hbits⟩
    · exact ⟨_, decodeTxWord_of_command hp hlow ht⟩

end Sys2Proof

/-! ## What decoding keeps of a header word (30_encoding.md sections 1 and 3) -/

namespace Sys2Proof

/-- The row of a received word, case by case: to show a property of the row, show it of each row under what the decoder
found in the word before it came to that row. -/
theorem decodeRxWord_cases {motive : Instr → Prop} (b : BufId) (h : Word) (n : Nat)
    (badType : field h 31 30 = 2 ∨ field h 31 30 = 3 → motive (.decBadType b (field h 31 30) (field h 29 0)))
    (discard : ∀ t, typeCode t = field h 31 30 → field h 29 27 = 6 → motive (.decDiscard b t (field h 26 0)))
    (badPort : ∀ t, typeCode t = field h 31 30 → field h 29 27 = 7 → motive (.decBadPort b t (field h 26 0)))
    (badEvt7 : ∀ p, p ≠ .discard → evtCodeWord p (field h 26 24) 7 (field h 19 0) = h →
      motive (.decEvtBadEvt7 b p (field h 26 24) (field h 19 0)))
    (badEvt8 : ∀ p, p ≠ .discard → evtCodeWord p (field h 26 24) (badEvt8Code (field h 22 20)) (field h 19 0) = h →
      motive (.decEvtBadEvt8 b p (field h 26 24) (field h 22 20) (field h 19 0)))
    (overflow : ∀ hdr : RxHeader, hdr.word = h → hdr.port ≠ .discard → n < hdr.length.toNat →
      motive (.decOverflow b hdr n))
    (packet : ∀ hdr, rxPktWord hdr = h → hdr.port ≠ .discard → motive (.decPkt b hdr))
    (event : ∀ hdr, rxEvtWord hdr = h → hdr.port ≠ .discard → motive (.decEvt b hdr)) :
    motive (decodeRxWord b h n) := by
  unfold decodeRxWord
  split
  · next ht => exact badType ((typeOf?_none_iff _).1 ht)
  · next t ht hp => exact discard t (typeCode_of_typeOf? _ _ ht) ((portOf?_discard_iff _).1 hp)
  · next t ht hp => exact badPort t (typeCode_of_typeOf? _ _ ht) ((portOf?_none_iff _).1 hp)
  · next p hd ht hp =>
    have hw := rxPktWord_field h p ((typeOf?_packet_iff _).1 ht) (portCode_of_portOf? _ _ hp)
    unfold decodeRxPkt
    dsimp only
    split_ifs with hlt
    · exact overflow (.pkt _) hw hd hlt
    · exact packet _ hw hd
  · next p hd ht hp =>
    have ht' := (typeOf?_command_iff _).1 ht
    have hp' := portCode_of_portOf? _ _ hp
    unfold decodeRxEvt
    split
    · next he =>
      have hw := evtCodeWord_field h p ht' hp'
      split_ifs with h23
      · exact badEvt8 p hd (by rwa [badEvt8Code_field h h23])
      · rw [eventField_eq_seven h (by simpa using h23) ((eventOf?_eq_none_iff _).1 he)] at hw
        exact badEvt7 p hd hw
    · next e he =>
      have hw := rxEvtWord_field h p e ht' hp' (eventCode_of_eventOf? _ _ he)
      dsimp only
      split_ifs with hlt
      · exact overflow (.evt _) hw hd hlt
      · exact event _ hw hd

/-- The row of a received word has that word. -/
theorem word?_decodeRxWord (b : BufId) (h : Word) (n : Nat) (a : BitVec 16) :
    (decodeRxWord b h n).word? a = some h := by
  apply decodeRxWord_cases (motive := fun i => i.word? a = some h) b h n
  case badType => exact fun _ => congrArg some (badTypeWord_field h)
  case discard => exact fun t ht hp => congrArg some (hp ▸ portWord_field h t ht)
  case badPort => exact fun t ht hp => congrArg some (hp ▸ portWord_field h t ht)
  case badEvt7 => exact fun _ _ hw => congrArg some hw
  case badEvt8 => exact fun _ _ hw => congrArg some hw
  case overflow => exact fun _ hw _ _ => congrArg some hw
  case packet => exact fun _ hw _ => congrArg some hw
  case event => exact fun _ hw _ => congrArg some hw

/-- The operation a transmit word is read as has that word, at the word's own Length. -/
theorem word?_of_decodeTxWord {b : BufId} {w : Word} {i : Instr} (hi : decodeTxWord b w = .ok i) :
    i.word? (field w 15 0) = some w := by
  obtain ⟨p, hp, -, hrow⟩ := decodeTxWord_eq_ok hi
  have hp' := portCode_of_portOf? _ _ hp
  obtain ⟨ht, ⟨h18, h22, h23⟩, rfl⟩ | ⟨ht, rfl⟩ := hrow
  · exact congrArg some (txPktWord_field w p ht hp' h18 h22 h23)
  · exact congrArg some (txCmdWord_field w p ht hp')

/-- Settles O11: each row keeps every field of its word, the bits it does not examine included. -/
theorem encodeOfDecodeKeepsEveryHeaderBit : Obligations.EncodeOfDecodeKeepsEveryHeaderBit :=
  ⟨fun b _ _ _ _ rest a => word?_decodeRxWord b _ rest.length a, fun _ _ _ => word?_of_decodeTxWord⟩

/-! ### Decoded operations are well-formed -/

theorem wellFormed_decodeRxWord (b : BufId) (h : Word) (n : Nat) : (decodeRxWord b h n).wellFormed = true := by
  apply decodeRxWord_cases (motive := fun i => i.wellFormed = true) b h n
  case badType => intro ht; simpa [Instr.wellFormed] using ht
  case discard => exact fun _ _ _ => rfl
  case badPort => exact fun _ _ _ => rfl
  case badEvt7 => intro p hd _; simpa [Instr.wellFormed] using hd
  case badEvt8 => intro p hd _; simpa [Instr.wellFormed] using hd
  case overflow => intro hdr _ hd hlt; simpa [Instr.wellFormed] using ⟨hd, hlt⟩
  case packet => intro hdr _ hd; simpa [Instr.wellFormed] using hd
  case event => intro hdr _ hd; simpa [Instr.wellFormed] using hd

theorem wellFormed_decodeRx (b : BufId) (buf : Buffer) : (decodeRx b buf).wellFormed = true := by
  unfold decodeRx
  split
  · exact wellFormed_decodeRxWord b _ _
  · next hshort => simpa [Instr.wellFormed] using Machine.length_lt_four_of_ne_cons hshort

theorem wellFormed_of_decodeTxWord {b : BufId} {w : Word} {i : Instr} (hi : decodeTxWord b w = .ok i) :
    i.wellFormed = true := by
  obtain ⟨p, -, -, ⟨-, -, rfl⟩ | ⟨-, rfl⟩⟩ := decodeTxWord_eq_ok hi <;> rfl

/-- Settles O12: the conditions of the rows are the checks the decoder made before it chose the row. -/
theorem decodedOperationsAreWellFormed : Obligations.DecodedOperationsAreWellFormed := by
  intro d b bytes i hi
  unfold decode at hi
  split at hi
  · cases hi; exact wellFormed_decodeRx b _
  · exact wellFormed_of_decodeTxWord hi
  · cases hi

/-- Settles O13, by running the decoder on the ten words. -/
theorem specWordsDecodeToTheirRows : Obligations.SpecWordsDecodeToTheirRows :=
  ⟨rfl, rfl, rfl, rfl, rfl, rfl, rfl, rfl, rfl, rfl⟩

end Sys2Proof

/-! ## Header bits, bytes and codes (30_encoding.md sections 1 and 2, 20_memory.md section 1) -/

namespace Sys2Proof

/-- Settles O4: each field and bit of a TXPKT word is one of its `txPktWord` laws, and the rounded length fits its 16
bits. -/
theorem txPacketHeaderHasTheBitsOfTxpkt : Obligations.TxPacketHeaderHasTheBitsOfTxpkt := by
  intro port f l hl
  refine ⟨txPktWord_type .., txPktWord_port .., txPktWord_qsel .., txPktWord_wiv .., txPktWord_bit23 ..,
    txPktWord_bit22 .., txPktWord_cso .., txPktWord_tso .., txPktWord_is80211 .., txPktWord_bit18 ..,
    txPktWord_txBurst .., txPktWord_nextValid .., ?_⟩
  rw [txPktWord_length, Machine.alignedLen_toNat hl]

/-- A word is the sum of its four bytes, least significant first (20_memory.md R35). -/
theorem toNat_eq_bytes (w : Word) : w.toNat =
    (field w 7 0).toNat + 256 * (field w 15 8).toNat + 65536 * (field w 23 16).toNat
      + 16777216 * (field w 31 24).toNat := by
  have hw := w.isLt
  simp only [toNat_field, Nat.shiftRight_eq_div_pow]
  omega

/-- Settles O6: the two conversions undo each other, and the bytes have their weights. -/
theorem headerBytesRoundTripLittleEndian : Obligations.HeaderBytesRoundTripLittleEndian :=
  ⟨fun w => ⟨_, _, _, _, rfl, fromLe32_le32 w, toNat_eq_bytes w⟩, le32_fromLe32⟩

/-- Settles O7: TYPE 0 and 1 name the two layouts of each direction, and what a request asks for is read off its
transfer type or its buffer. -/
theorem layoutFollowsDirectionAndType : Obligations.LayoutFollowsDirectionAndType := by
  refine ⟨rfl, rfl, rfl, rfl, fun d => ?_, fun _ _ _ _ => ⟨rfl, rfl⟩, fun _ _ => rfl⟩
  cases d <;> exact ⟨rfl, rfl⟩

/-- Settles O8: the codes are listed, and reading a code is inverse to writing it. -/
theorem enumCodesAreTheListOrder : Obligations.EnumCodesAreTheListOrder :=
  ⟨rfl, rfl, rfl, portOf?_portCode, rfl, qselOf_qselCode, eventOf?_eventCode, eventOf?_eq_none_iff⟩

/-- Settles O2: the pad fills the payload to a multiple of 4 and adds the 4-byte trailer. -/
theorem padLengthIsFourToSevenBytes : Obligations.PadLengthIsFourToSevenBytes := by
  intro l
  have hpad := Machine.padLen_eq l
  exact ⟨rfl, hpad, by omega, by omega, by omega, by omega, by omega, by omega⟩

end Sys2Proof

/-! ## The encode operations and the refusals (40_encoder.md section 1, 60_exceptions.md section 2) -/

namespace Sys2Proof.Machine

section
variable {s : State} {b : BufId}

/-! ### What an encode operation answers on a free buffer -/

theorem exec_encPkt_of_free (hb : s.busy b = false) (p : Port) (flags : TxFlags) :
    exec (.encPkt b p flags) s = withPktFlags flags fun f => encodePacket b p f (s.buffer b) s := by
  rw [exec, execEncPkt, State.owned_of_free hb]

theorem exec_encCmd_of_free (hb : s.busy b = false) (p : Port) (flags : TxFlags) :
    exec (.encCmd b p flags) s = withCmdFlags flags fun f => encodeCommand b p f (s.buffer b) s := by
  rw [exec, execEncCmd, State.owned_of_free hb]

theorem exec_encPkt_of_le (hb : s.busy b = false) (hl : (s.buffer b).length ≤ 65532) (p : Port) (f : TxPktFlags) :
    exec (.encPkt b p (.pktTx f)) s =
      .next (s.answerEnc b (s.buffer b) (txPktWord p f (alignedLen (s.buffer b).length))) :=
  (exec_encPkt_of_free hb p _).trans (if_pos ((admitSize_packet _).2 hl))

theorem exec_encPkt_of_lt (hb : s.busy b = false) (hl : 65532 < (s.buffer b).length) (p : Port) (f : TxPktFlags) :
    exec (.encPkt b p (.pktTx f)) s = .refused .oversize :=
  (exec_encPkt_of_free hb p _).trans (if_neg (mt (admitSize_packet _).1 (Nat.not_le_of_lt hl)))

theorem exec_encPkt_of_cmdTx (hb : s.busy b = false) (p : Port) (g : TxCmdFlags) :
    exec (.encPkt b p (.cmdTx g)) s = .refused .configurationError := exec_encPkt_of_free hb p _

theorem exec_encCmd_of_le (hb : s.busy b = false) (hl : (s.buffer b).length ≤ 65532)
    (hc : (s.buffer b).length ≤ Config.cmdMaxLen.val) (p : Port) (f : TxCmdFlags) :
    exec (.encCmd b p (.cmdTx f)) s =
      .next (s.answerEnc b (s.buffer b) (txCmdWord p f (alignedLen (s.buffer b).length))) :=
  (exec_encCmd_of_free hb p _).trans (if_pos ((admitSize_command _).2 ⟨hl, hc⟩))

theorem exec_encCmd_of_lt (hb : s.busy b = false)
    (hl : 65532 < (s.buffer b).length ∨ Config.cmdMaxLen.val < (s.buffer b).length) (p : Port) (f : TxCmdFlags) :
    exec (.encCmd b p (.cmdTx f)) s = .refused .oversize := by
  have hno : ¬ admitSize (s.buffer b).length .command = true := by rw [admitSize_command]; omega
  exact (exec_encCmd_of_free hb p _).trans (if_neg hno)

theorem exec_encCmd_of_pktTx (hb : s.busy b = false) (p : Port) (g : TxPktFlags) :
    exec (.encCmd b p (.pktTx g)) s = .refused .configurationError := exec_encCmd_of_free hb p _

/-- ENC.DATA checks and does what ENC.PKT with port WlanPort does (30_encoding.md R78). -/
theorem exec_encData (s : State) (b : BufId) (f : TxPktFlags) :
    exec (.encData b f) s = exec (.encPkt b .wlanPort (.pktTx f)) s := rfl

/-- An admitted encode puts the header, the payload and the pad into the buffer and into the response. -/
theorem State.answerEnc_eq (s : State) (b : BufId) (payload : Buffer) (w : Word) :
    s.answerEnc b payload w =
      { s with
        buffers := s.buffers.set b (le32 w ++ payload ++ zeros (padLen payload.length))
        responses := .enc (le32 w ++ payload ++ zeros (padLen payload.length)) :: s.responses } := by
  rw [← encCommon_eq]; rfl

/-- An encoded output begins with its header word. -/
theorem encCommon_header (payload : Buffer) (w : Word) :
    encCommon payload w = le32 w ++ (payload ++ zeros (padLen payload.length)) := by
  rw [encCommon_eq, List.append_assoc]

theorem State.answerEnc_responses_header (s : State) (b : BufId) (payload : Buffer) (w : Word) :
    (s.answerEnc b payload w).responses =
      .enc (le32 w ++ (payload ++ zeros (padLen payload.length))) :: s.responses := by
  rw [State.answerEnc_responses, encCommon_header]

/-! ### The first reason to refuse -/

variable {r : Request}

theorem State.firstRefusal_of_busy (h : s.busyFor r = true) : s.firstRefusal r = some .bufferBusy := if_pos h

theorem State.busyFor_alone (s : State) (r : Request) : State.busyFor { s with inProgress := [] } r = false := by
  unfold State.busyFor
  split <;> rfl

/-- On a free buffer a request is judged as if it were alone. -/
theorem State.firstRefusal_of_free (h : s.busyFor r = false) :
    s.firstRefusal r = State.firstRefusal { s with inProgress := [] } r := by
  unfold State.firstRefusal
  rw [h, State.busyFor_alone]
  rfl

theorem State.busyFor_of_firstRefusal_eq_none (h : s.firstRefusal r = none) : s.busyFor r = false := by
  cases hb : s.busyFor r with
  | false => rfl
  | true => exact nomatch (State.firstRefusal_of_busy hb).symm.trans h

theorem State.busy_of_busyFor_eq_true (h : s.busyFor r = true) : ∃ b, r.buf? = some b ∧ s.busy b = true := by
  unfold State.busyFor at h
  split at h
  · next b hb => exact ⟨b, hb, h⟩
  · cases h

theorem exec_fetch_of_busyFor (h : s.busyFor r = true) : exec (s.fetch r) s = .refused .bufferBusy := by
  obtain ⟨b, hr, hb⟩ := State.busy_of_busyFor_eq_true h
  exact exec_of_busy ((s.fetch_buf? r).trans hr) hb

theorem exec_recv_of_free (hb : s.busy b = false) :
    exec (.recv b) s = .next ((s.respond (.dec (dec (s.buffer b)))).respond (.route (route (dec (s.buffer b))))) := by
  rw [exec, execRecv, State.owned_of_free hb]

/-- The operation of a request answers as `firstRefusal` says: it is refused with that reason, and answered where there
is none. -/
theorem exec_fetch_by_firstRefusal (s : State) (r : Request) :
    match s.firstRefusal r with
    | some x => exec (s.fetch r) s = .refused x
    | none => ∃ t, exec (s.fetch r) s = .next t := by
  cases hbusy : s.busyFor r with
  | true => rw [State.firstRefusal_of_busy hbusy]; exact exec_fetch_of_busyFor hbusy
  | false =>
    unfold State.firstRefusal
    rw [hbusy]
    cases r with
    | encode b p ttype flags =>
      have hb : s.busy b = false := hbusy
      cases ttype with
      | packet =>
        cases flags with
        | cmdTx g => exact exec_encPkt_of_cmdTx hb p g
        | pktTx f =>
          simp only [TxFlags.belongsTo, reduceCtorEq, false_and, Bool.not_true, Bool.false_eq_true, if_false]
          split_ifs with hl
          · exact exec_encPkt_of_lt hb hl p f
          · exact ⟨_, exec_encPkt_of_le hb (by omega) p f⟩
      | command =>
        cases flags with
        | pktTx f => exact exec_encCmd_of_pktTx hb p f
        | cmdTx g =>
          simp only [TxFlags.belongsTo, true_and, Bool.not_true, Bool.false_eq_true, if_false]
          split_ifs with hl hc
          · exact exec_encCmd_of_lt hb (.inl hl) p g
          · exact exec_encCmd_of_lt hb (.inr hc) p g
          · exact ⟨_, exec_encCmd_of_le hb (by omega) (by omega) p g⟩
    | encData b f =>
      have hb : s.busy b = false := hbusy
      simp only [Bool.false_eq_true, if_false]
      split_ifs with hl
      · exact exec_encPkt_of_lt hb hl .wlanPort f
      · exact ⟨_, exec_encPkt_of_le hb (by omega) .wlanPort f⟩
    | decode b => exact ⟨_, exec_fetch_decode hbusy⟩
    | dispatch o => exact ⟨_, rfl⟩
    | recv b => exact ⟨_, exec_recv_of_free hbusy⟩

theorem exec_fetch_of_refused {x : Refusal} (h : s.firstRefusal r = some x) : exec (s.fetch r) s = .refused x := by
  have key := exec_fetch_by_firstRefusal s r
  rwa [h] at key

theorem exec_fetch_of_admitted (h : s.firstRefusal r = none) : ∃ t, exec (s.fetch r) s = .next t := by
  have key := exec_fetch_by_firstRefusal s r
  rwa [h] at key

/-- An answered request was admitted. -/
theorem firstRefusal_of_exec_next {t : State} (h : exec (s.fetch r) s = .next t) : s.firstRefusal r = none := by
  cases hx : s.firstRefusal r with
  | none => rfl
  | some x => exact nomatch (exec_fetch_of_refused hx).symm.trans h

/-- Settles O22: an operation is refused with the reason `firstRefusal` gives, and answered where it gives none. -/
theorem refusalIsTheFirstReasonThatApplies : Obligations.RefusalIsTheFirstReasonThatApplies := by
  intro s r x
  refine ⟨fun h => ?_, exec_fetch_of_refused⟩
  cases hx : s.firstRefusal r with
  | none =>
    obtain ⟨t, ht⟩ := exec_fetch_of_admitted hx
    exact nomatch ht.symm.trans h
  | some y => rw [Host.Outcome.refused.inj ((exec_fetch_of_refused hx).symm.trans h)]

/-- Settles O23: past the three refusals each operation has a next state. -/
theorem admittedRequestsAlwaysComplete : Obligations.AdmittedRequestsAlwaysComplete :=
  fun _ _ => exec_fetch_of_admitted

end

/-! ### The encoder's answers -/

/-- Settles O15: on a free buffer ENC.PKT is decided by the flag variant and the size bound. -/
theorem encPktAnswersTheGrownBuffer : Obligations.EncPktAnswersTheGrownBuffer := by
  intro s b port hb payload l
  refine ⟨fun f hl => ?_, fun f hl => exec_encPkt_of_lt hb hl port f, exec_encPkt_of_cmdTx hb port⟩
  exact (exec_encPkt_of_le hb hl port f).trans (congrArg _ (State.answerEnc_eq ..))

/-- Settles O16: on a free buffer ENC.CMD is decided by the flag variant and the two size bounds. -/
theorem encCmdAnswersTheGrownBuffer : Obligations.EncCmdAnswersTheGrownBuffer := by
  intro s b port hb payload l
  refine ⟨fun f hl hc => ?_, fun f hl => exec_encCmd_of_lt hb hl port f, exec_encCmd_of_pktTx hb port⟩
  exact (exec_encCmd_of_le hb hl hc port f).trans (congrArg _ (State.answerEnc_eq ..))

/-- Settles O17: ENC.DATA makes the same checks and the same answer as ENC.PKT with port WlanPort. -/
theorem encDataIsEncPktOnWlanPort : Obligations.EncDataIsEncPktOnWlanPort := by
  intro s b f
  refine ⟨exec_encData s b f, fun hb hl => ?_⟩
  rw [exec_encData, exec_encPkt_of_le hb hl, State.answerEnc_eq]

/-- Settles O20: on a free buffer the size check alone decides, and the bound on the rounded length is the bound 65532
on the length. -/
theorem encodeCompletesExactlyWithinTheSizeBound : Obligations.EncodeCompletesExactlyWithinTheSizeBound := by
  intro s b port f g hb l
  have hround : roundUp l 4 ≤ 0xFFFF ↔ l ≤ 65532 := roundUp_four_le_iff l
  have hpkt (h : ¬ roundUp l 4 ≤ 0xFFFF) : exec (.encPkt b port (.pktTx f)) s = .refused .oversize :=
    exec_encPkt_of_lt hb (by omega) port f
  have hcmd (h : ¬ (roundUp l 4 ≤ 0xFFFF ∧ l ≤ Config.cmdMaxLen.val)) :
      exec (.encCmd b port (.cmdTx g)) s = .refused .oversize := exec_encCmd_of_lt hb (by omega) port g
  refine ⟨⟨fun ⟨t, ht⟩ => ?_, fun h => ⟨_, exec_encPkt_of_le hb (hround.1 h) port f⟩⟩, hround, hpkt,
    ⟨fun ⟨t, ht⟩ => ?_, fun h => ⟨_, exec_encCmd_of_le hb (hround.1 h.1) h.2 port g⟩⟩, hcmd⟩
  · by_contra h; exact nomatch (hpkt h).symm.trans ht
  · by_contra h; exact nomatch (hcmd h).symm.trans ht

/-- Settles O21: neither check looks at the port, and the assembled word carries its code. -/
theorem encoderWritesAnyPortAsGiven : Obligations.EncoderWritesAnyPortAsGiven := by
  intro s b port hb hl
  exact ⟨fun f => ⟨_, _, _, exec_encPkt_of_le hb hl port f, State.answerEnc_responses_header .., txPktWord_port ..⟩,
    fun g hc => ⟨_, _, _, exec_encCmd_of_le hb hl hc port g, State.answerEnc_responses_header .., txCmdWord_port ..⟩⟩

/-! ### The layout of an encoded output -/

section
variable (payload : Buffer) (w : Word)

theorem encCommon_take_four : (encCommon payload w).take 4 = le32 w := by
  rw [encCommon_header]; rfl

theorem encCommon_drop_four : (encCommon payload w).drop 4 = payload ++ zeros (padLen payload.length) := by
  rw [encCommon_header]; rfl

theorem encCommon_drop_payload : (encCommon payload w).drop (4 + payload.length) = zeros (padLen payload.length) := by
  rw [← List.drop_drop, encCommon_drop_four, List.drop_left]

end

/-- The pad of an encoded output is its alignment bytes and the 4-byte trailer (40_encoder.md R88). -/
theorem zeros_padLen (l : Nat) : zeros (padLen l) = zeros (roundUp l 4 - l) ++ zeros 4 := by
  rw [padLen_eq_add]; exact List.replicate_add ..

/-- Settles O18: the output is the header, the payload and the pad in this order, and the three lengths add up to the
rounded length and 8. -/
theorem encodedOutputHasItsLayoutAndLength : Obligations.EncodedOutputHasItsLayoutAndLength := by
  intro s t i b htx hb h
  obtain ⟨-, hl, w, hw, hfield, rfl⟩ := exec_tx_next htx hb h
  intro payload l out
  have hout : out = encCommon payload w := State.answerEnc_buffer ..
  have hlen : out.length = roundUp l 4 + 8 := hout ▸ encCommon_length payload w
  have hpad : padLen l = (roundUp l 4 - l) + 4 := padLen_eq_add l
  have hle : l ≤ roundUp l 4 := le_roundUp_four l
  have hlt : roundUp l 4 < l + 4 := roundUp_four_lt l
  have hmod : roundUp l 4 % 4 = 0 := roundUp_four_mod l
  refine ⟨hout ▸ State.answerEnc_responses .., ⟨w, hw, hout ▸ encCommon_take_four payload w, ?_⟩, ?_,
    hout ▸ encCommon_drop_payload payload w, by omega, hlen, by omega, by omega, by omega⟩
  · rw [hfield, alignedLen_toNat hl]
  · rw [hout, encCommon_drop_four, List.take_left]

/-- Settles O19: the Length of the header is the rounded length, so it covers the payload and the alignment bytes and
leaves out the trailer. -/
theorem lengthFieldCoversPayloadAndAlignmentOnly : Obligations.LengthFieldCoversPayloadAndAlignmentOnly := by
  intro s t i b htx hb h
  obtain ⟨-, hl, w, -, hfield, rfl⟩ := exec_tx_next htx hb h
  refine ⟨w, _, State.answerEnc_responses .., encCommon_take_four _ w, ?_⟩
  intro l a
  have ha : a = roundUp l 4 := by rw [← alignedLen_toNat hl, ← hfield]
  have hle : l ≤ roundUp l 4 := le_roundUp_four l
  have hlt : roundUp l 4 < l + 4 := roundUp_four_lt l
  have hcover : (s.buffer b ++ zeros (a - l)).length = a := by
    rw [List.length_append, zeros_length]; omega
  have hdrop : (encCommon (s.buffer b) w).drop 4 = (s.buffer b ++ zeros (a - l)) ++ zeros 4 := by
    rw [encCommon_drop_four, zeros_padLen, ha, List.append_assoc]
  refine ⟨by omega, by omega, ?_, ?_⟩
  · rw [hdrop]; exact List.take_left' hcover
  · rw [← List.drop_drop, hdrop]; exact List.drop_left' hcover

/-- An answered encode gives one response, of the encoder's kind. -/
theorem exec_tx_next_responses {s t : State} {i : Instr} {b : BufId} (htx : i.direction = .tx) (hb : i.buf? = some b)
    (h : exec i s = .next t) : ∃ out, t.responses = .enc out :: s.responses := by
  obtain ⟨-, -, w, -, -, rfl⟩ := exec_tx_next htx hb h
  exact ⟨_, State.answerEnc_responses ..⟩

/-- Settles O42: an answered encode is `answerEnc` of its own buffer, whose bytes stand behind the 4 of the header. -/
theorem encodersWriteOnlyTheirBuffer : Obligations.EncodersWriteOnlyTheirBuffer := by
  intro s t i b htx hb h
  obtain ⟨hin, hprog, hfree⟩ := exec_next_frame h
  have hresp := exec_tx_next_responses htx hb h
  have hother (c : BufId) (hc : c ≠ b) : t.buffer c = s.buffer c :=
    exec_next_buffer_ne h fun hic => hc (Option.some.inj (hic.symm.trans hb))
  obtain ⟨-, -, w, -, -, rfl⟩ := exec_tx_next htx hb h
  refine ⟨fun c a hc => congrArg (·[a]?) (hother c hc), fun k hk => ?_, hin, hprog, hfree, hresp⟩
  rw [State.readByte_eq_buffer, State.readByte_eq_buffer, State.answerEnc_buffer, ← List.getElem?_drop,
    encCommon_drop_four, List.getElem?_append_left hk]

end Sys2Proof.Machine

/-! ## What every step keeps (20_memory.md section 3, 10_state.md section 3) -/

namespace Sys2Proof.Machine

/-! ### Busy buffers -/

section
variable {s : State} {b : BufId}

theorem State.busy_eq_true_iff : s.busy b = true ↔ ∃ r ∈ s.inProgress, r.buf? = some b := by
  simp [State.busy]

theorem State.busy_eq_false_iff : s.busy b = false ↔ ∀ r ∈ s.inProgress, r.buf? ≠ some b := by
  simp [State.busy]

theorem State.busyFor_eq_false_iff {r : Request} : s.busyFor r = false ↔ ∀ b, r.buf? = some b → s.busy b = false := by
  unfold State.busyFor
  split
  · next b hb => simp [hb]
  · next hb => simp [hb]

/-- An answered request's buffer was in no other operation. -/
theorem busyFor_of_exec_next {t : State} {r : Request} (h : exec (s.fetch r) s = .next t) : s.busyFor r = false :=
  State.busyFor_of_firstRefusal_eq_none (firstRefusal_of_exec_next h)

/-- An answered request leaves the buffer of every request in progress. -/
theorem exec_next_buffer_of_inProgress {t : State} {r q : Request} (h : exec (s.fetch r) s = .next t)
    (hq : q ∈ s.inProgress) {c : BufId} (hc : q.buf? = some c) : t.buffer c = s.buffer c := by
  refine exec_next_buffer_ne h fun hrc => ?_
  have hfree := State.busyFor_eq_false_iff.1 (busyFor_of_exec_next h) c ((s.fetch_buf? r).symm.trans hrc)
  exact State.busy_eq_false_iff.1 hfree q hq hc

end

/-! ### The inputs of a step -/

/-- The state with its first input taken off. -/
def State.pop (s : State) : State := { s with inputs := s.inputs.tail }

section
variable {s t : State}

theorem State.pop_of_inputs {i : Input} {rest : List Input} (h : s.inputs = i :: rest) :
    s.pop = { s with inputs := rest } := by rw [State.pop, h, List.tail_cons]

theorem step_request {r : Request} {rest : List Input} (h : s.inputs = .request r :: rest) :
    step s = exec (s.pop.fetch r) s.pop := by
  rw [State.pop_of_inputs h, State.fetch_congr (s := { s with inputs := rest }) (s' := s) fun _ _ => rfl]
  simp only [step, h]

theorem step_start {r : Request} {rest : List Input} (h : s.inputs = .start r :: rest) :
    step s = s.pop.start r := by simp only [step, h, State.pop_of_inputs h]

theorem step_complete {k : Nat} {rest : List Input} (h : s.inputs = .complete k :: rest) :
    step s = s.pop.complete k := by simp only [step, h, State.pop_of_inputs h]

theorem step_place {b : BufId} {bytes : Buffer} {rest : List Input} (h : s.inputs = .place b bytes :: rest) :
    step s = s.pop.place b bytes := by simp only [step, h, State.pop_of_inputs h]

theorem step_reset {rest : List Input} (h : s.inputs = .reset :: rest) : step s = .next s.pop.abandon := by
  simp only [step, h, State.pop_of_inputs h]

/-- With no input waiting the oldest request in progress is completed. -/
theorem step_nil (h : s.inputs = []) : step s = s.pop.complete 0 := by
  have hpop : s.pop = s := by rw [State.pop, h, List.tail_nil, ← h]
  simp only [step, h, hpop, State.serveOldest]

/-- What the completion of a request in progress can do: nothing, where there is none, or run it with the others still
in progress. -/
theorem State.complete_next {k : Nat} (h : s.complete k = .next t) :
    (∃ p r, p.Sublist s.inProgress ∧
      exec (State.fetch { s with inProgress := p } r) { s with inProgress := p } = .next t) ∨ t = s := by
  cases hr : s.inProgress[k]? with
  | none =>
    rw [State.complete_of_none hr] at h
    exact .inr (Host.Outcome.next.inj h).symm
  | some r =>
    rw [State.complete_of_some hr] at h
    exact .inl ⟨_, r, List.eraseIdx_sublist .., h⟩

/-- What a step that gives a next state did: it ran a request, with all or all but one of the requests in progress
beside it; began one; placed bytes in a free buffer; was a reset; or did nothing but take its input. -/
theorem step_next_cases (h : step s = .next t) :
    (∃ p r, p.Sublist s.inProgress ∧
      exec (State.fetch { s.pop with inProgress := p } r) { s.pop with inProgress := p } = .next t) ∨
    (∃ r v, exec (s.pop.fetch r) s.pop = .next v ∧ t = { s.pop with inProgress := s.inProgress ++ [r] }) ∨
    (∃ b bytes, s.busy b = false ∧ t = s.pop.setBuffer b bytes) ∨
    t = s.pop.abandon ∨ t = s.pop := by
  cases hin : s.inputs with
  | nil =>
    obtain hrun | rfl := State.complete_next (step_nil hin ▸ h)
    · exact .inl hrun
    · exact .inr (.inr (.inr (.inr rfl)))
  | cons i rest =>
    cases i with
    | request r => exact .inl ⟨s.inProgress, r, .refl _, step_request hin ▸ h⟩
    | start r =>
      rw [step_start hin] at h
      obtain ⟨⟨v, hv⟩, hstart⟩ | ⟨x, -, hstart⟩ := s.pop.start_cases r
      · exact .inr (.inl ⟨r, v, hv, (Host.Outcome.next.inj (hstart.symm.trans h)).symm⟩)
      · exact nomatch hstart.symm.trans h
    | complete k =>
      obtain hrun | rfl := State.complete_next (step_complete hin ▸ h)
      · exact .inl hrun
      · exact .inr (.inr (.inr (.inr rfl)))
    | place b bytes =>
      rw [step_place hin, State.place] at h
      split_ifs at h with hb
      cases h
      exact .inr (.inr (.inl ⟨b, bytes, eq_false_of_ne_true hb, rfl⟩))
    | reset =>
      rw [step_reset hin] at h
      exact .inr (.inr (.inr (.inl (Host.Outcome.next.inj h).symm)))

end

/-! ### The invariant -/

theorem Memory.wf_nil : Memory.wf [] := ⟨List.Pairwise.nil, nofun⟩

/-- Settles O54: nothing is listed and nothing is in progress. -/
theorem resetStateIsInCanonicalForm : Obligations.ResetStateIsInCanonicalForm :=
  ⟨Memory.wf_nil, List.nodup_nil⟩

/-- A request with no buffer in an operation in progress can join the ones that have distinct buffers. -/
theorem nodup_bufs_append {s : State} {r : Request} (hn : (s.inProgress.filterMap Request.buf?).Nodup)
    (hfree : s.busyFor r = false) : ((s.inProgress ++ [r]).filterMap Request.buf?).Nodup := by
  rw [List.filterMap_append]
  refine hn.append ?_ ?_
  · cases hr : r.buf? <;> simp [hr]
  · intro b hb hr
    obtain ⟨q, hq, hqb⟩ := List.mem_filterMap.1 hb
    have hrb : r.buf? = some b := by simpa using hr
    exact State.busy_eq_false_iff.1 (State.busyFor_eq_false_iff.1 hfree b hrb) q hq hqb

/-- Settles O55: every write keeps the canonical form, and a request joins the ones in progress only where its buffer is
in none of them. -/
theorem everyStepKeepsBuffersCanonicalAndExclusive : Obligations.EveryStepKeepsBuffersCanonicalAndExclusive := by
  rintro s t ⟨hw, hn⟩ hstep
  obtain ⟨p, r, hsub, h⟩ | ⟨r, v, h, rfl⟩ | ⟨b, bytes, -, rfl⟩ | rfl | rfl := step_next_cases hstep
  · obtain ⟨-, (hprog : t.inProgress = p), -⟩ := exec_next_frame h
    refine ⟨exec_next_wf h hw, ?_⟩
    rw [hprog]
    exact hn.sublist (hsub.filterMap _)
  · exact ⟨hw, nodup_bufs_append hn (busyFor_of_exec_next (s := s.pop) h)⟩
  · exact ⟨Memory.wf_set hw b bytes, hn⟩
  · exact ⟨State.abandon_wf hw, List.nodup_nil⟩
  · exact ⟨hw, hn⟩

/-! ### What is in progress was admitted -/

section
variable {s t : State}

/-- Whether a request alone is refused depends on its buffer's bytes alone. -/
theorem State.firstRefusal_alone_congr {r : Request} (h : ∀ b, r.buf? = some b → t.buffer b = s.buffer b) :
    State.firstRefusal { t with inProgress := [] } r = State.firstRefusal { s with inProgress := [] } r := by
  have hbuf (b : BufId) (hb : r.buf? = some b) :
      State.buffer { t with inProgress := [] } b = State.buffer { s with inProgress := [] } b := h b hb
  unfold State.firstRefusal
  rw [State.busyFor_alone, State.busyFor_alone]
  cases r with
  | encode b p ttype flags => simp only [hbuf b rfl]
  | encData b f => simp only [hbuf b rfl]
  | _ => rfl

/-- Requests stay admitted as long as their own buffers keep their bytes. -/
theorem State.Admitted.of_buffers (hs : s.Admitted) (hsub : ∀ r ∈ t.inProgress, r ∈ s.inProgress)
    (hbuf : ∀ r ∈ t.inProgress, ∀ b, r.buf? = some b → t.buffer b = s.buffer b) : t.Admitted := fun r hr =>
  (State.firstRefusal_alone_congr (hbuf r hr)).trans (hs r (hsub r hr))

/-- An answered request was admitted, and would be alone. -/
theorem firstRefusal_alone_of_exec_next {r : Request} (h : exec (s.fetch r) s = .next t) :
    State.firstRefusal { s with inProgress := [] } r = none :=
  (State.firstRefusal_of_free (busyFor_of_exec_next h)).symm.trans (firstRefusal_of_exec_next h)

end

/-- Settles O56: a step writes no buffer of a request that stays in progress, and a request that joins was checked. -/
theorem everyStepKeepsRequestsInProgressAdmitted : Obligations.EveryStepKeepsRequestsInProgressAdmitted := by
  intro s t hs hstep
  obtain ⟨p, r, hsub, h⟩ | ⟨r, v, h, rfl⟩ | ⟨b, bytes, hb, rfl⟩ | rfl | rfl := step_next_cases hstep
  · obtain ⟨-, (hprog : t.inProgress = p), -⟩ := exec_next_frame h
    refine hs.of_buffers (fun q hq => hsub.subset (hprog ▸ hq)) fun q hq c hc => ?_
    exact exec_next_buffer_of_inProgress h (hprog ▸ hq) hc
  · intro q hq
    obtain hq | hq := List.mem_append.1 hq
    · exact hs q hq
    · obtain rfl := List.mem_singleton.1 hq
      exact firstRefusal_alone_of_exec_next (s := s.pop) h
  · refine hs.of_buffers (fun q hq => hq) fun q hq c hc => Memory.get_set_ne _ ?_ _
    rintro rfl
    exact State.busy_eq_false_iff.1 hb q hq hc
  · exact fun q hq => nomatch hq
  · exact hs

end Sys2Proof.Machine

/-! ## One step of the machine (10_state.md sections 1 to 3, 70_reset_and_hazards.md) -/

namespace Sys2Proof.Machine

/-! ### Which operation a step runs -/

/-- Settles O48: the input's request is run, and a loaded table word is such a request for a buffer of its own. -/
theorem stepRunsTheDecodedOperation : Obligations.StepRunsTheDecodedOperation := by
  have hrequest (s : State) (r : Request) (rest : List Input) (hin : s.inputs = .request r :: rest) :
      step s = exec (s.fetch r) { s with inputs := rest } := by simp only [step, hin]
  refine ⟨fun s hin hprog => ?_, hrequest, fun s b rest i hin hi => ?_, fun nbits w => ⟨_, rfl, ?_⟩⟩
  · simp only [step, hin, State.serveOldest_nil hprog]
  · rw [hrequest s _ rest hin]
    exact congrArg (exec · _) (Except.ok.inj hi)
  · have hbuf : (State.reset.withFetchWord nbits w).buffer 0 = tableBytes nbits w :=
      Memory.get_set_self Memory.wf_nil 0 _
    rw [hrequest _ (.decode 0) [] rfl, State.fetch, hbuf]
    rfl

/-- Settles O49: a completion and an idle input list both take one request out of the list and run it. -/
theorem concurrentRequestsAreServedByOneStep : Obligations.ConcurrentRequestsAreServedByOneStep := by
  refine ⟨fun s r younger hin hprog => ?_, fun s k rest hin => ⟨fun r hr => ?_, fun hr => ?_⟩⟩
  · simp only [step, hin, State.serveOldest_cons hprog]
  · simp only [step, hin]
    exact State.complete_of_some (s := { s with inputs := rest }) hr
  · simp only [step, hin]
    exact State.complete_of_none (s := { s with inputs := rest }) hr

/-! ### No step faults -/

theorem State.start_not_fault (s : State) (r : Request) (x : Fault) : s.start r ≠ .fault x := by
  obtain ⟨-, h⟩ | ⟨y, -, h⟩ := s.start_cases r <;> rw [h] <;> nofun

theorem State.complete_not_fault (s : State) (k : Nat) (x : Fault) : s.complete k ≠ .fault x := by
  cases hr : s.inProgress[k]? with
  | none => rw [State.complete_of_none hr]; nofun
  | some r => rw [State.complete_of_some hr]; exact exec_fetch_not_fault rfl

theorem State.place_not_fault (s : State) (b : BufId) (bytes : Buffer) (x : Fault) : s.place b bytes ≠ .fault x := by
  unfold State.place
  split_ifs <;> nofun

theorem step_not_fault (s : State) (x : Fault) : step s ≠ .fault x := by
  cases hin : s.inputs with
  | nil => rw [step_nil hin]; exact s.pop.complete_not_fault 0 x
  | cons i rest =>
    cases i with
    | request r => rw [step_request hin]; exact exec_fetch_not_fault rfl
    | start r => rw [step_start hin]; exact s.pop.start_not_fault r x
    | complete k => rw [step_complete hin]; exact s.pop.complete_not_fault k x
    | place b bytes => rw [step_place hin]; exact s.pop.place_not_fault b bytes x
    | reset => rw [step_reset hin]; nofun

/-- Settles O36: the one operation that can fault is never selected, and decode and receive requests on a free buffer
are answered whatever the buffer holds. -/
theorem noStepFaultsAndReceivingNeverStops : Obligations.NoStepFaultsAndReceivingNeverStops := by
  refine ⟨step_not_fault, fun s b rest hb hin => ?_⟩
  have hb' : s.pop.busy b = false := hb
  obtain hin | hin := hin
  · refine ⟨_, (step_request hin).trans (exec_fetch_decode hb'), congrArg List.tail hin, ?_⟩
    exact Nat.lt_succ_self _
  · refine ⟨_, (step_request hin).trans (exec_recv_of_free hb'), congrArg List.tail hin, ?_⟩
    exact Nat.lt_succ_of_lt (Nat.lt_succ_self _)

/-! ### Concurrent requests that are refused, reset and placed bytes -/

/-- Settles O50: every operation asks for its buffer first, and a concurrent request begins exactly where its operation
would be answered. -/
theorem busyBuffersAreRefused : Obligations.BusyBuffersAreRefused := by
  refine ⟨fun s i b hi hb => exec_of_busy hi hb, fun s r rest hin => ?_⟩
  have hstep : step s = s.pop.start r := step_start hin
  have hrefused {x : Refusal} (hx : s.pop.firstRefusal r = some x) : step s = .refused x := by
    obtain ⟨⟨v, hv⟩, -⟩ | ⟨y, hy, hstart⟩ := s.pop.start_cases r
    · exact nomatch (exec_fetch_of_refused hx).symm.trans hv
    · rw [hstep, hstart, Host.Outcome.refused.inj (hy.symm.trans (exec_fetch_of_refused hx))]
  have hpop : s.pop.firstRefusal r = s.firstRefusal r := rfl
  refine ⟨fun hbusy => hrefused (State.firstRefusal_of_busy hbusy), fun x hx => hrefused hx, fun hnone => ?_⟩
  obtain ⟨v, hv⟩ := exec_fetch_of_admitted (s := s.pop) hnone
  obtain ⟨-, hstart⟩ | ⟨y, hy, -⟩ := s.pop.start_cases r
  · rw [hstep, hstart, State.pop_of_inputs hin]
  · exact nomatch hv.symm.trans hy

/-- Settles O52: placed bytes are one write of a free buffer. -/
theorem placedBytesReadBack : Obligations.PlacedBytesReadBack := by
  intro s b bytes rest hw hb hin
  have hplace : s.pop.place b bytes = .next (s.pop.setBuffer b bytes) := if_neg (ne_true_of_eq_false hb)
  refine ⟨_, (step_place hin).trans hplace, congrArg List.tail hin, Memory.get_set_self hw b bytes, ?_, rfl, rfl, rfl⟩
  exact fun c a hc => congrArg (·[a]?) (Memory.get_set_ne _ (Ne.symm hc) bytes)

section
variable {s : State} {b : BufId}

/-- Giving a request's buffer free bytes leaves every other buffer. -/
theorem State.spoil_buffer_ne {q : Request} (hq : q.buf? ≠ some b) : (s.spoil q).buffer b = s.buffer b := by
  unfold State.spoil
  split
  · next c hc => exact Memory.get_set_ne _ (fun hcb => hq (hc.trans (congrArg some hcb))) _
  · rfl

theorem State.spoil_buffer_self (hw : s.buffers.wf) {q : Request} (hq : q.buf? = some b) :
    (s.spoil q).buffer b = Config.freeBuffer s.freeCount := by
  unfold State.spoil
  rw [hq]
  exact Memory.get_set_self hw b _

theorem State.foldl_spoil_buffer_ne {qs : List Request} (hq : ∀ q ∈ qs, q.buf? ≠ some b) :
    (qs.foldl State.spoil s).buffer b = s.buffer b := by
  induction qs generalizing s with
  | nil => rfl
  | cons q qs ih =>
    obtain ⟨hq, hqs⟩ := List.forall_mem_cons.1 hq
    exact (ih hqs).trans (State.spoil_buffer_ne hq)

/-- The buffer of one of the requests holds a free value afterwards: that of the last request which has it. -/
theorem State.foldl_spoil_buffer_mem (hw : s.buffers.wf) {qs : List Request} (hq : ∃ q ∈ qs, q.buf? = some b) :
    ∃ k, (qs.foldl State.spoil s).buffer b = Config.freeBuffer k := by
  induction qs generalizing s with
  | nil => obtain ⟨q, hq, -⟩ := hq; cases hq
  | cons q qs ih =>
    by_cases hlater : ∃ p ∈ qs, p.buf? = some b
    · exact ih (State.spoil_wf hw q) hlater
    · have hlast : ∀ p ∈ qs, p.buf? ≠ some b := fun p hp hpb => hlater ⟨p, hp, hpb⟩
      have hqb : q.buf? = some b := by
        obtain ⟨p, hp, hpb⟩ := hq
        obtain rfl | hp := List.mem_cons.1 hp
        · exact hpb
        · exact absurd hpb (hlast p hp)
      exact ⟨_, (State.foldl_spoil_buffer_ne hlast).trans (State.spoil_buffer_self hw hqb)⟩

theorem State.abandon_of_idle (h : s.inProgress = []) : s.abandon = s := by
  unfold State.abandon
  rw [h, List.foldl_nil, ← h]

end

/-- Settles O51: reset gives free bytes to the buffers of the abandoned requests, one after the other, and touches no
other buffer. -/
theorem resetAbandonsRequestsInProgress : Obligations.ResetAbandonsRequestsInProgress := by
  intro s rest hw hin
  refine ⟨_, step_reset hin, (State.abandon_inputs _).trans (congrArg List.tail hin), rfl, State.abandon_responses _,
    fun b hb => ?_, fun b a hb => ?_, fun hidle => ?_⟩
  · exact State.foldl_spoil_buffer_mem (s := s.pop) hw (State.busy_eq_true_iff.1 hb)
  · have hkeep := State.foldl_spoil_buffer_ne (s := s.pop) (State.busy_eq_false_iff.1 hb)
    exact congrArg (·[a]?) hkeep
  · rw [State.abandon_of_idle (s := s.pop) hidle, State.pop_of_inputs hin]

/-! ### Inside one buffer -/

/-- Settles O53: both accesses are guarded by the same condition, and within it they are a slice and the replacement of
one. -/
theorem memoryAccessesStayInsideTheBuffer : Obligations.MemoryAccessesStayInsideTheBuffer := by
  intro buf v addr n
  refine ⟨by simp [memRead], by simp [memWrite], fun x hx => ?_, fun x hx => ?_⟩
  · obtain ⟨-, rfl, hlen⟩ := memRead_eq_some hx
    refine ⟨hlen, fun k hk => ?_⟩
    rw [List.getElem?_take_of_lt hk, List.getElem?_drop]
  · unfold memWrite at hx
    split_ifs at hx with hle
    cases hx
    have htake : (buf.take addr).length = addr := List.length_take_of_le (by omega)
    refine ⟨by simp; omega, fun k hk => ?_, fun k hk => ?_⟩
    · rw [List.append_assoc, List.getElem?_append_right (by omega), htake, Nat.add_sub_cancel_left,
        List.getElem?_append_left hk]
    · obtain hk | hk := hk
      · rw [List.append_assoc, List.getElem?_append_left (by omega), List.getElem?_take_of_lt hk]
      · have hhead : (buf.take addr ++ v).length = addr + v.length := by rw [List.length_append, htake]
        rw [List.getElem?_append_right (by omega), hhead, List.getElem?_drop, Nat.add_sub_cancel' hk]

end Sys2Proof.Machine

/-! ## The outcomes of DEC (41_decoder.md sections 2 to 4) -/

namespace Sys2Proof.Machine

/-! ### Rejected headers -/

/-- Settles O25: TYPE is the first check, so no other bit of the header counts. -/
theorem reservedTypeDecodesToUnrecognizedType : Obligations.ReservedTypeDecodesToUnrecognizedType := by
  refine ⟨fun _ _ _ _ hb => answerDec_of_free hb _, ?_⟩
  intro s b b0 b1 b2 b3 rest hb hbuf t ht
  rw [exec_fetch_decode_cons hb hbuf, decWord_of_badType ht]
  rfl

/-- Settles O26: PORT is checked right after TYPE, and PORT 6 is a Discard of the whole word. -/
theorem discardPortDecodesToDiscard : Obligations.DiscardPortDecodesToDiscard := by
  refine ⟨fun _ _ _ _ hb => answerDec_of_free hb _, ?_⟩
  intro s b b0 b1 b2 b3 rest hb hbuf h ht hp
  rw [exec_fetch_decode_cons hb hbuf, decWord_of_discard ht hp]
  rfl

/-- Settles O28: EventType is checked before the Length, and the two rows answer with their own codes. -/
theorem reservedEventDecodesToUnrecognizedEvent : Obligations.ReservedEventDecodesToUnrecognizedEvent := by
  refine ⟨fun _ _ _ _ _ hb => answerDec_of_free hb _, fun s b p hi v lo hb => ?_, ?_⟩
  · rw [← badEvt8Code_toNat]
    exact answerDec_of_free hb _
  · intro s b b0 b1 b2 b3 rest hb hbuf h v ht hp hv
    rw [exec_fetch_decode_cons hb hbuf, decWord_of_badEvent ht hp hv]
    rfl

/-- Settles O32: the nine rows together are DEC. -/
theorem decodeRequestsAnswerDec : Obligations.DecodeRequestsAnswerDec := fun _ _ => exec_fetch_decode

/-! ### Frames -/

section
variable {buf : Buffer} {f : DecodedFrame}

theorem portOf_ne_discard : ∀ {c : BitVec 3}, c.toNat ≤ 5 → portOf c ≠ .discard := by decide

theorem portOf_portCode (p : Port) : portOf (portCode p) = p := portOf_of_portOf? (portOf?_portCode p)

/-- A buffer that decodes to a frame is a header word that passes the checks and at least its D payload bytes. -/
theorem dec_eq_ok_cons (hf : dec buf = .ok f) : ∃ h rest, buf = le32 h ++ rest ∧ HeaderPasses h ∧
    (field h 13 0).toNat ≤ rest.length ∧ f = frameOfWord h (rest.take (field h 13 0).toNat) := by
  have hlong : ¬ buf.length < 4 := fun hlt => nomatch (dec_of_short hlt).symm.trans hf
  obtain ⟨b0, b1, b2, b3, rest, rfl⟩ : ∃ b0 b1 b2 b3 rest, buf = b0 :: b1 :: b2 :: b3 :: rest := by
    by_contra hno
    exact hlong (length_lt_four_of_ne_cons fun b0 b1 b2 b3 rest h => hno ⟨b0, b1, b2, b3, rest, h⟩)
  rw [dec_cons] at hf
  obtain ⟨hp, hle, rfl⟩ := decWord_eq_ok hf
  simp only [List.length_cons] at hle
  exact ⟨_, rest, by rw [le32_fromLe32]; rfl, hp, by omega, rfl⟩

/-- A header word that passes the checks, with its D payload bytes and whatever stands behind them, decodes to its
frame. -/
theorem dec_of_frame {h : Word} {rest : Buffer} (hp : HeaderPasses h) (hle : (field h 13 0).toNat ≤ rest.length) :
    dec (le32 h ++ rest) = .ok (frameOfWord h (rest.take (field h 13 0).toNat)) := by
  rw [dec_le32, decWord_of_frame hp (by simpa using hle)]
  rfl

/-- Settles O34: the frame takes its D bytes from the front of what stands behind the header, which more bytes at the
end do not move. -/
theorem trailingBytesAreNotPartOfTheFrame : Obligations.TrailingBytesAreNotPartOfTheFrame := by
  intro buf extra f hf
  obtain ⟨h, rest, rfl, hp, hle, rfl⟩ := dec_eq_ok_cons hf
  refine ⟨?_, List.length_take_of_le hle, rfl⟩
  rw [List.append_assoc, dec_of_frame hp (by rw [List.length_append]; omega), List.take_append_of_le_length hle]

/-- Settles O35: a frame is the frame of a header word that passed the checks. -/
theorem framesHaveRecognisedPortTypeAndEvent : Obligations.FramesHaveRecognisedPortTypeAndEvent := by
  intro buf f hf
  obtain ⟨h, slice, ⟨ht, hp⟩, rfl⟩ := dec_eq_ok hf
  have hcode : portCode (portOf (field h 29 27)) = field h 29 27 := portCode_portOf hp
  exact ⟨portOf_ne_discard hp, hcode ▸ hp, hcode, ht⟩

end

/-! ### Unassigned bits -/

/-- The outcome with another header word in it. -/
def withHeaderWord (w : Word) : DecOutcome → DecOutcome
  | .ok f => .ok { f with headerWord := w }
  | .discard _ => .discard w
  | .err e => .err e

section
variable {h h' : Word}

/-- A field that does not reach bits 14 and 15 is the same in two words that agree on every other bit. -/
theorem field_congr_of_assigned (hbits : ∀ i, i ≠ 14 → i ≠ 15 → h'.getLsbD i = h.getLsbD i) (hi lo : Nat)
    (hout : 15 < lo ∨ hi < 14) : field h' hi lo = field h hi lo := by
  apply BitVec.eq_of_getLsbD_eq
  intro i hi'
  rw [getLsbD_field, getLsbD_field, hbits (lo + i) (by omega) (by omega)]

/-- DEC looks at bits 14 and 15 of a header word only for the flag at bit 15 of an event. -/
theorem decWord_congr_of_assigned (hbits : ∀ i, i ≠ 14 → i ≠ 15 → h'.getLsbD i = h.getLsbD i)
    (h15 : field h 31 30 ≠ 0 → h'.getLsbD 15 = h.getLsbD 15) (rest : Buffer) :
    decWord h' (le32 h' ++ rest) = withHeaderWord h' (decWord h (le32 h ++ rest)) := by
  have hfield := field_congr_of_assigned hbits
  have hbit (i : Nat) (hi : 16 ≤ i) : h'.getLsbD i = h.getLsbD i := hbits i (by omega) (by omega)
  have hflags : rxFlagsOf (field h 31 30) h' = rxFlagsOf (field h 31 30) h := by
    unfold rxFlagsOf
    split_ifs with ht
    · simp only [rxPktFlagsOf, hbit, hfield, Nat.reduceLeDiff, Nat.reduceLT, true_or]
    · simp only [rxEvtFlagsOf, h15 ht, hbit, hfield, Nat.reduceLeDiff, Nat.reduceLT, true_or]
  have hread : memRead (le32 h' ++ rest) 4 (field h 13 0).toNat = memRead (le32 h ++ rest) 4 (field h 13 0).toNat := by
    simp only [memRead, List.length_append, le32_length]; rfl
  have hlen : (le32 h' ++ rest).length = (le32 h ++ rest).length := by simp
  unfold decWord
  dsimp only
  rw [hfield 31 30 (by omega), hfield 29 27 (by omega), hfield 23 20 (by omega), hfield 13 0 (by omega), hflags,
    hread, hlen]
  split_ifs
  · rfl
  · rfl
  · rfl
  · rfl
  · cases memRead (le32 h ++ rest) 4 (field h 13 0).toNat <;> rfl

/-- A Discard outcome carries the header word. -/
theorem decWord_eq_discard {buf : Buffer} {x : Word} (hx : decWord h buf = .discard x) : x = h := by
  simp only [decWord] at hx
  split_ifs at hx
  · exact (DecOutcome.discard.inj hx).symm
  · split at hx <;> cases hx

theorem getLsbD_eq_false_of_and_eq_zero {m mask : Word} (hm : m &&& mask = 0) {i : Nat}
    (hi : i < 32 → mask.getLsbD i = true) : m.getLsbD i = false := by
  by_cases hlt : i < 32
  · have hand : (m &&& mask).getLsbD i = false := by rw [hm]; simp
    rwa [BitVec.getLsbD_and, hi hlt, Bool.and_true] at hand
  · exact BitVec.getLsbD_of_ge m i (Nat.le_of_not_lt hlt)

/-- Flipping the unassigned bits of a header word changes no outcome but the header word it carries. -/
theorem dec_flip_unassigned {m : Word}
    (hm : field h 31 30 = 0 ∧ m &&& 0xFFFF3FFF = 0 ∨ field h 31 30 = 1 ∧ m &&& 0xFFFFBFFF = 0) (rest : Buffer) :
    dec (le32 (h ^^^ m) ++ rest) = withHeaderWord (h ^^^ m) (dec (le32 h ++ rest)) := by
  have hflip {i : Nat} (hi : m.getLsbD i = false) : (h ^^^ m).getLsbD i = h.getLsbD i := by
    rw [BitVec.getLsbD_xor, hi, Bool.xor_false]
  have hpkt : ∀ i, i < 32 → i ≠ 14 → i ≠ 15 → (0xFFFF3FFF : Word).getLsbD i = true := by decide
  have hevt : ∀ i, i < 32 → i ≠ 14 → (0xFFFFBFFF : Word).getLsbD i = true := by decide
  rw [dec_le32, dec_le32]
  obtain ⟨ht, hm⟩ | ⟨-, hm⟩ := hm
  · refine decWord_congr_of_assigned (fun i h14 h15 => hflip ?_) (fun hne => absurd ht hne) rest
    exact getLsbD_eq_false_of_and_eq_zero hm fun hi => hpkt i hi h14 h15
  · have hbit (i : Nat) (h14 : i ≠ 14) : (h ^^^ m).getLsbD i = h.getLsbD i :=
      hflip (getLsbD_eq_false_of_and_eq_zero hm fun hi => hevt i hi h14)
    exact decWord_congr_of_assigned (fun i h14 _ => hbit i h14) (fun _ => hbit 15 (by omega)) rest

end

/-- Settles O33: of each outcome only the header word it carries can change. -/
theorem unassignedReceiveBitsAreIgnored : Obligations.UnassignedReceiveBitsAreIgnored := by
  intro h m rest hm
  have hflip := dec_flip_unassigned hm rest
  refine ⟨fun f hf => ⟨?_, ?_⟩, fun x hx => ⟨?_, ?_⟩, fun e he => ?_⟩
  · rw [dec_le32] at hf
    obtain ⟨-, -, rfl⟩ := decWord_eq_ok hf
    rfl
  · rw [hflip, hf]; rfl
  · rw [dec_le32] at hx
    exact decWord_eq_discard hx
  · rw [hflip, hx]; rfl
  · rw [hflip, he]; rfl

end Sys2Proof.Machine

/-! ## DISPATCH and RECV (42_dispatcher.md, 30_encoding.md section 5) -/

namespace Sys2Proof.Machine

/-- Settles O39: the key of a frame is read off its flag variant. -/
theorem framesAreDeliveredByTheirKey : Obligations.FramesAreDeliveredByTheirKey := by
  constructor
  · rintro s ⟨port, d, flags, slice, h⟩ ht
    cases flags with
    | rxPkt g => rfl
    | rxEvt g => cases ht
  · rintro s ⟨port, d, flags, slice, h⟩ g hg
    cases hg
    rfl

/-- Settles O40: RECV is the decode request's answer and then DISPATCH of that outcome. -/
theorem recvIsDecodeThenDispatch : Obligations.RecvIsDecodeThenDispatch := fun _ _ hb =>
  ⟨_, _, _, exec_fetch_decode hb, rfl, exec_dispatch _ _, exec_recv_of_free hb, rfl⟩

/-- Only a frame is delivered, by its own key. -/
theorem route_eq_deliver {o : DecOutcome} {key : RouteKey} {f : DecodedFrame} (h : route o = .deliver key f) :
    o = .ok f ∧ key = routeKey f := by
  cases o with
  | ok g => cases h; exact ⟨rfl, rfl⟩
  | discard w => cases h
  | err e => cases h

/-- An answered RECV answers DEC of its buffer and the route of that outcome. -/
theorem exec_recv_next {s t : State} {b : BufId} (h : exec (.recv b) s = .next t) :
    t = (s.respond (.dec (dec (s.buffer b)))).respond (.route (route (dec (s.buffer b)))) := by
  rw [exec, execRecv] at h
  obtain ⟨-, hk⟩ := State.owned_next h
  exact (Host.Outcome.next.inj hk).symm

/-- Settles O41: a delivered frame is the frame of a header word that passed the checks, and its key is made from that
word's fields. -/
theorem deliveredFramesNameARealPort : Obligations.DeliveredFramesNameARealPort := by
  intro s t b key f older hexec hresp
  obtain rfl := exec_recv_next hexec
  obtain ⟨hf, rfl⟩ := route_eq_deliver (Response.route.inj (List.head_eq_of_cons_eq hresp))
  obtain ⟨h, rest, -, hpass, hle, rfl⟩ := dec_eq_ok_cons hf
  obtain ⟨ht, hp⟩ := hpass
  refine ⟨portOf_ne_discard hp, List.length_take_of_le hle, ?_⟩
  obtain h0 | ⟨h1, hv⟩ := ht
  · exact .inl ⟨h0, by simp only [routeKey, frameOfWord, rxFlagsOf, if_pos h0]; rfl⟩
  · refine .inr ⟨h1, eventOf (field h 23 20), eventCode_eventOf hv, ?_⟩
    simp only [routeKey, frameOfWord, rxFlagsOf, h1]
    rfl

/-- Settles O46: a decode request leaves the buffer it reads, so the second one answers the same. -/
theorem decodingAndDispatchingTwiceAgree : Obligations.DecodingAndDispatchingTwiceAgree :=
  ⟨fun s _ hb => ⟨_, _, _, exec_fetch_decode hb, exec_fetch_decode (s := s.respond _) hb, rfl, rfl⟩,
    fun s o => ⟨_, _, _, exec_dispatch o s, exec_dispatch o _, rfl⟩⟩

/-- Settles O47, request by request: an encode gives its output, a decode DEC's outcome, and DISPATCH its route. -/
theorem eachRequestGetsItsOwnKindOfResponse : Obligations.EachRequestGetsItsOwnKindOfResponse := by
  intro s t r h
  cases r with
  | encode b p ttype flags =>
    cases ttype with
    | packet => exact exec_tx_next_responses (b := b) rfl rfl h
    | command => exact exec_tx_next_responses (b := b) rfl rfl h
  | encData b f => exact exec_tx_next_responses (b := b) rfl rfl h
  | decode b =>
    obtain rfl := exec_fetch_decode_next h
    exact ⟨_, rfl⟩
  | dispatch o => cases h; exact ⟨_, rfl⟩
  | recv b =>
    obtain rfl := exec_recv_next h
    exact ⟨_, _, rfl⟩

end Sys2Proof.Machine


/-! ## The loopback law (41_decoder.md section 4) -/

namespace Sys2Proof.Machine

/-! ### The payload that comes back -/

/-- The bytes that a receiver of D = A mod 2^14 bytes finds behind the header of an encoded output. -/
theorem take_encoded_payload (payload : Buffer) :
    (payload ++ zeros (padLen payload.length)).take (roundUp payload.length 4 % 2 ^ 14) = loopbackSlice payload := by
  have hle := le_roundUp_four payload.length
  have hmod : roundUp payload.length 4 % 2 ^ 14 ≤ roundUp payload.length 4 := Nat.mod_le ..
  rw [loopbackSlice, zeros_padLen, ← List.append_assoc, List.take_append_of_le_length]
  simp only [List.length_append, zeros_length]
  omega

theorem loopbackSlice_length (payload : Buffer) :
    (loopbackSlice payload).length = roundUp payload.length 4 % 2 ^ 14 := by
  have hle := le_roundUp_four payload.length
  have hmod : roundUp payload.length 4 % 2 ^ 14 ≤ roundUp payload.length 4 := Nat.mod_le ..
  apply List.length_take_of_le
  simp only [List.length_append, zeros_length]
  omega

/-- The payload comes back exactly when no alignment byte was added and the RX Length field keeps every bit of A. -/
theorem loopbackSlice_eq_iff (payload : Buffer) :
    loopbackSlice payload = payload ↔ payload.length % 4 = 0 ∧ roundUp payload.length 4 < 2 ^ 14 := by
  have hle := le_roundUp_four payload.length
  have hlt := roundUp_four_lt payload.length
  have hround := roundUp_four payload.length
  constructor
  · intro h
    have hlen : roundUp payload.length 4 % 2 ^ 14 = payload.length := by rw [← loopbackSlice_length, h]
    omega
  · rintro ⟨hmod, hfits⟩
    have hround : roundUp payload.length 4 = payload.length := by omega
    rw [loopbackSlice, Nat.mod_eq_of_lt hfits, hround]
    exact List.take_left

/-! ### The header that comes back -/

section
variable {payload : Buffer} {w : Word}

/-- DEC of an encoded output whose header passes the checks is the frame of the header and the loopback slice. -/
theorem dec_encCommon (hp : HeaderPasses w) (hd : (field w 13 0).toNat = roundUp payload.length 4 % 2 ^ 14) :
    dec (encCommon payload w) = .ok (frameOfWord w (loopbackSlice payload)) := by
  have hmod : roundUp payload.length 4 % 2 ^ 14 ≤ roundUp payload.length 4 := Nat.mod_le ..
  have hle : (field w 13 0).toNat ≤ (payload ++ zeros (padLen payload.length)).length := by
    have hpad := padLen_eq_add payload.length
    simp only [List.length_append, zeros_length]
    omega
  rw [encCommon_header, dec_of_frame hp hle, hd, take_encoded_payload]

theorem dec_encCommon_eq_decWord : dec (encCommon payload w) = decWord w (encCommon payload w) := by
  rw [encCommon_header, dec_le32]

end

/-- The RX Length field holds the low 14 bits of the TX Length. -/
theorem alignedLen_setWidth {l : Nat} : (alignedLen l).setWidth 14 = BitVec.ofNat 14 (roundUp l 4 % 2 ^ 14) := by
  apply BitVec.eq_of_toNat_eq
  simp only [alignedLen, BitVec.toNat_setWidth, BitVec.toNat_ofNat]
  omega

theorem portCode_le_five {p : Port} (hp : p ≠ .discard) : (portCode p).toNat ≤ 5 :=
  le_five_of_portOf? (portOf?_portCode p) hp

theorem dec_loopback_pkt (port : Port) (f : TxPktFlags) (payload : Buffer) :
    dec (encCommon payload (txPktWord port f (alignedLen payload.length))) =
      loopbackPkt port f payload (txPktWord port f (alignedLen payload.length)) := by
  generalize hw : txPktWord port f (alignedLen payload.length) = w
  have ht : field w 31 30 = 0 := hw ▸ txPktWord_type ..
  have hp : field w 29 27 = portCode port := hw ▸ txPktWord_port ..
  have hd : field w 13 0 = BitVec.ofNat 14 (roundUp payload.length 4 % 2 ^ 14) := by
    rw [← hw, txPktWord_rxLength, alignedLen_setWidth]
  have hflags : rxFlagsOf (field w 31 30) w = .rxPkt (rxPktFlagsOf w) := by rw [ht]; rfl
  unfold loopbackPkt
  split_ifs with hport
  · rw [dec_encCommon_eq_decWord]
    exact decWord_of_discard (.inl ht) (by rw [hp, hport]; rfl)
  · rw [dec_encCommon ⟨.inl ht, hp ▸ portCode_le_five hport⟩ (by rw [hd]; simp), frameOfWord, hp, portOf_portCode, hd,
      hflags, ← hw, rxPktFlagsOf_txPktWord]

theorem dec_loopback_cmd (port : Port) (f : TxCmdFlags) (payload : Buffer) :
    dec (encCommon payload (txCmdWord port f (alignedLen payload.length))) =
      loopbackCmd port f payload (txCmdWord port f (alignedLen payload.length)) := by
  generalize hw : txCmdWord port f (alignedLen payload.length) = w
  have ht : field w 31 30 = 1 := hw ▸ txCmdWord_type ..
  have hp : field w 29 27 = portCode port := hw ▸ txCmdWord_port ..
  have hv : field w 23 20 = f.cmdType.extractLsb' 0 4 := hw ▸ txCmdWord_rxEvent ..
  have hd : field w 13 0 = BitVec.ofNat 14 (roundUp payload.length 4 % 2 ^ 14) := by
    rw [← hw, txCmdWord_rxLength, alignedLen_setWidth]
  have h15 : (alignedLen payload.length).getLsbD 15 = (roundUp payload.length 4).testBit 15 := by
    rw [alignedLen, BitVec.getLsbD_ofNat]; rfl
  unfold loopbackCmd
  split_ifs with hport
  · rw [dec_encCommon_eq_decWord]
    exact decWord_of_discard (.inr ht) (by rw [hp, hport]; rfl)
  · have hport5 : (field w 29 27).toNat ≤ 5 := hp ▸ portCode_le_five hport
    rw [← hv]
    split
    · next he =>
      rw [dec_encCommon_eq_decWord, decWord_of_badEvent ht hport5 ((eventOf?_eq_none_iff _).1 he), hv]
      simp
    · next e he =>
      have hflags : rxFlagsOf (field w 31 30) w = .rxEvt (rxEvtFlagsOf w e) := by
        rw [rxFlagsOf, ht, eventOf_of_eventOf? he]; rfl
      rw [dec_encCommon ⟨.inr ⟨ht, le_six_of_eventOf? he⟩, hport5⟩ (by rw [hd]; simp), frameOfWord, hp,
        portOf_portCode, hd, hflags, ← hw, rxEvtFlagsOf_txCmdWord, h15]

/-- A decode request for what an admitted encode left answers DEC of the output. -/
theorem exec_fetch_decode_answerEnc {s : State} {b : BufId} (hb : s.busy b = false) (payload : Buffer) (w : Word) :
    exec ((s.answerEnc b payload w).fetch (.decode b)) (s.answerEnc b payload w) =
      .next ((s.answerEnc b payload w).respond (.dec (dec (encCommon payload w)))) := by
  have hb' : (s.answerEnc b payload w).busy b = false := hb
  rw [exec_fetch_decode hb', State.answerEnc_buffer]

/-- Settles O37: the header that comes back is the TX word read in the RX layout, field by field. -/
theorem loopbackLaw : Obligations.LoopbackLaw := by
  refine ⟨fun s b port f hb hl => ?_, fun s b port f hb hl hc => ?_, fun payload _ => loopbackSlice_eq_iff payload⟩
  · refine ⟨_, _, _, exec_encPkt_of_le hb hl port f, State.answerEnc_buffer .., encCommon_take_four .., ?_⟩
    rw [exec_fetch_decode_answerEnc hb, dec_loopback_pkt]
    rfl
  · refine ⟨_, _, _, exec_encCmd_of_le hb hl hc port f, State.answerEnc_buffer .., encCommon_take_four .., ?_⟩
    rw [exec_fetch_decode_answerEnc hb, dec_loopback_cmd]
    rfl

end Sys2Proof.Machine

/-! ## Operations on distinct buffers (20_memory.md section 3) -/

namespace Sys2Proof.Machine

section
variable {s t u : State} {p q : Request}

/-- Behind an answered request on another buffer, a request is answered as it would have been before it. -/
theorem exec_after_disjoint (hne : ∀ b c, p.buf? = some b → q.buf? = some c → b ≠ c)
    (hp : exec (s.fetch p) s = .next t) (hq : exec (s.fetch q) s = .next u) :
    ∃ t' new, exec (t.fetch q) t = .next t' ∧ u.responses = new ++ s.responses ∧ t'.responses = new ++ t.responses ∧
      (∀ b a, q.buf? = some b → t'.readByte b a = u.readByte b a) ∧
      (∀ b a, q.buf? ≠ some b → t'.readByte b a = t.readByte b a) := by
  obtain ⟨-, hprog, -⟩ := exec_next_frame hp
  have hfree : s.busyFor q = false := busyFor_of_exec_next hq
  have hfree' : t.busyFor q = false := by simpa only [State.busyFor, State.busy, hprog] using hfree
  have hbuf (b : BufId) (hb : q.buf? = some b) : s.buffer b = t.buffer b :=
    (exec_next_buffer_ne hp fun hpb => hne b b ((s.fetch_buf? p).symm.trans hpb) hb rfl).symm
  obtain ⟨t', new, ht', -, hu, hnew, hown⟩ := responsesDependOnTheRequestAlone s t u q hfree hfree' hbuf hq
  refine ⟨t', new, ht', hu, hnew, fun b a hb => (hown b a hb).symm, fun b a hb => ?_⟩
  exact congrArg (·[a]?) (exec_next_buffer_ne ht' fun hqb => hb ((t.fetch_buf? q).symm.trans hqb))

end

/-- Settles O45: each request finds its own buffer as the other left it, which is as it was. -/
theorem distinctBuffersDoNotOrderEachOther : Obligations.DistinctBuffersDoNotOrderEachOther := by
  intro s t u p q hne hp hq
  have hne' : ∀ b c, q.buf? = some b → p.buf? = some c → b ≠ c := fun b c hb hc => (hne c b hc hb).symm
  obtain ⟨t', newQ, ht', hu, htr, htown, htother⟩ := exec_after_disjoint hne hp hq
  obtain ⟨u', newP, hu', ht, hur, huown, huother⟩ := exec_after_disjoint hne' hq hp
  have hkeep {r : Request} {v : State} {b : BufId} (h : exec (s.fetch r) s = .next v) (hb : r.buf? ≠ some b) (a : Nat) :
      v.readByte b a = s.readByte b a :=
    congrArg (·[a]?) (exec_next_buffer_ne h fun hrb => hb ((s.fetch_buf? r).symm.trans hrb))
  refine ⟨t', u', newP, newQ, ht', hu', ht, hu, by rw [htr, ht, List.append_assoc],
    by rw [hur, hu, List.append_assoc], fun b a => ?_⟩
  by_cases hqb : q.buf? = some b
  · have hpb : p.buf? ≠ some b := fun hpb => hne b b hpb hqb rfl
    rw [htown b a hqb, huother b a hpb]
  · by_cases hpb : p.buf? = some b
    · rw [htother b a hqb, huown b a hpb]
    · rw [htother b a hqb, huother b a hpb, hkeep hp hpb, hkeep hq hqb]

end Sys2Proof.Machine

/-! ## Every request is eventually served (70_reset_and_hazards.md section 3) -/

namespace Sys2Proof.Machine

/-! ### A bound on the steps -/

section
variable {s t : State}

theorem step_next_inputs (h : step s = .next t) : t.inputs = s.inputs.tail := by
  obtain ⟨p, r, -, h⟩ | ⟨r, v, -, rfl⟩ | ⟨b, bytes, -, rfl⟩ | rfl | rfl := step_next_cases h
  · obtain ⟨hin, -, -⟩ := exec_next_frame h
    exact hin
  · rfl
  · rfl
  · exact State.abandon_inputs _
  · rfl

/-- A step puts at most one request more into the list of those in progress. -/
theorem step_next_inProgress_length (h : step s = .next t) : t.inProgress.length ≤ s.inProgress.length + 1 := by
  obtain ⟨p, r, hsub, h⟩ | ⟨r, v, -, rfl⟩ | ⟨b, bytes, -, rfl⟩ | rfl | rfl := step_next_cases h
  · obtain ⟨-, (hprog : t.inProgress = p), -⟩ := exec_next_frame h
    rw [hprog]
    exact Nat.le_succ_of_le hsub.length_le
  · simp
  · exact Nat.le_succ _
  · exact Nat.zero_le _
  · exact Nat.le_succ _

/-- With no input waiting a step takes the oldest request out of the list. -/
theorem step_nil_inProgress (hin : s.inputs = []) (h : step s = .next t) : t.inProgress = s.inProgress.tail := by
  rw [step_nil hin] at h
  cases hprog : s.inProgress with
  | nil =>
    rw [State.complete_of_none (s := s.pop) (by simp [State.pop, hprog])] at h
    cases h
    exact hprog
  | cons r younger =>
    rw [State.complete_of_some (s := s.pop) (r := r) (by simp [State.pop, hprog])] at h
    obtain ⟨-, hrest, -⟩ := exec_next_frame h
    exact hrest.trans (by simp [State.pop, hprog])

theorem step_pending (h : step s = .next t) : t.pending ≤ s.pending - 1 := by
  have hinputs := step_next_inputs h
  unfold State.pending
  rw [hinputs]
  cases hin : s.inputs with
  | nil =>
    rw [step_nil_inProgress hin h]
    simp
  | cons i rest =>
    have hlen := step_next_inProgress_length h
    simp only [List.tail_cons, List.length_cons]
    omega

end

/-- A run of at least `pending` steps ends with nothing waiting and nothing in progress, or with a refusal. -/
theorem run_of_pending_le : ∀ (k : Nat) (s : State), s.pending ≤ k →
    (∃ t : State, Sys2Proof.core.run k s = .next t ∧ t.inputs = [] ∧ t.inProgress = []) ∨
    (∃ x : Refusal, Sys2Proof.core.run k s = .refused x) := by
  intro k
  induction k with
  | zero =>
    intro s hs
    unfold State.pending at hs
    exact .inl ⟨s, rfl, List.eq_nil_of_length_eq_zero (by omega), List.eq_nil_of_length_eq_zero (by omega)⟩
  | succ k ih =>
    intro s hs
    cases hstep : step s with
    | next t =>
      have hpending := step_pending hstep
      rw [run_succ_of_next hstep]
      exact ih t (by omega)
    | fault x => exact absurd hstep (step_not_fault s x)
    | refused x => exact .inr ⟨x, run_succ_of_refused hstep k⟩

/-! ### The responses of a request alone -/

/-- The responses a request gets where no other request is in progress. -/
def State.alone (s : State) (r : Request) : List Response :=
  match exec (State.fetch { s with inProgress := [], responses := [] } r)
    { s with inProgress := [], responses := [] } with
  | .next u => u.responses
  | .fault _ => []
  | .refused _ => []

section
variable {s u t : State} {r : Request}

/-- An answered request gets the responses it would get alone, in any state that holds the same bytes in its buffer. -/
theorem responses_eq_alone (hbuf : ∀ b, r.buf? = some b → u.buffer b = s.buffer b)
    (h : exec (u.fetch r) u = .next t) : s.alone r ≠ [] ∧ t.responses = s.alone r ++ u.responses := by
  obtain ⟨v, new, hv, hne, ht, hnew, -⟩ := responsesDependOnTheRequestAlone u
    { s with inProgress := [], responses := [] } t r (busyFor_of_exec_next h) (State.busyFor_alone { s with responses := [] } r) hbuf h
  have halone : s.alone r = new := by
    unfold State.alone
    rw [hv]
    exact hnew.trans (List.append_nil _)
  exact ⟨halone ▸ hne, halone ▸ ht⟩

/-- What an admitted request gets alone depends on its buffer's bytes alone. -/
theorem State.alone_congr (hbuf : ∀ b, r.buf? = some b → t.buffer b = s.buffer b)
    (hr : State.firstRefusal { t with inProgress := [] } r = none) : t.alone r = s.alone r := by
  obtain ⟨v, hv⟩ := exec_fetch_of_admitted hr
  obtain ⟨-, ht⟩ := responses_eq_alone (s := t) (u := { t with inProgress := [] }) (fun _ _ => rfl) hv
  obtain ⟨-, hs⟩ := responses_eq_alone (s := s) (u := { t with inProgress := [] }) hbuf hv
  exact List.append_cancel_right (ht.symm.trans hs)

/-- The oldest request in progress is in no other operation, so one step answers it. -/
theorem step_serves_oldest {younger : List Request} (hinv : s.Inv) (hadm : s.Admitted) (hin : s.inputs = [])
    (hprog : s.inProgress = r :: younger) :
    ∃ t, step s = .next t ∧
      exec (State.fetch { s with inProgress := younger } r) { s with inProgress := younger } = .next t := by
  have hnodup : ((r :: younger).filterMap Request.buf?).Nodup := hprog ▸ hinv.2
  have hfree : State.busyFor { s with inProgress := younger } r = false := by
    refine State.busyFor_eq_false_iff.2 fun b hb => State.busy_eq_false_iff.2 fun q hq hqb => ?_
    rw [List.filterMap_cons_some hb] at hnodup
    exact (List.nodup_cons.1 hnodup).1 (List.mem_filterMap.2 ⟨q, hq, hqb⟩)
  have hadmitted : State.firstRefusal { s with inProgress := younger } r = none :=
    (State.firstRefusal_of_free hfree).trans (hadm r (hprog ▸ List.mem_cons_self ..))
  obtain ⟨t, ht⟩ := exec_fetch_of_admitted hadmitted
  exact ⟨t, (concurrentRequestsAreServedByOneStep.1 s r younger hin hprog).trans ht, ht⟩

end

/-- With no input waiting, as many steps as there are requests in progress answer them all, oldest first. -/
theorem run_serves_inProgress (p : List Request) : ∀ s : State, s.inProgress = p → s.Inv → s.Admitted → s.inputs = [] →
    ∃ t : State, Sys2Proof.core.run p.length s = .next t ∧ t.inProgress = [] ∧
      t.responses = p.reverse.flatMap s.alone ++ s.responses := by
  induction p with
  | nil => exact fun s hprog _ _ _ => ⟨s, rfl, hprog, rfl⟩
  | cons r younger ih =>
    intro s hprog hinv hadm hin
    obtain ⟨t, hstep, hexec⟩ := step_serves_oldest hinv hadm hin hprog
    obtain ⟨htin, (htprog : t.inProgress = younger), -⟩ := exec_next_frame hexec
    have htadm : t.Admitted := everyStepKeepsRequestsInProgressAdmitted s t hadm hstep
    have htinv : t.Inv := everyStepKeepsBuffersCanonicalAndExclusive s t hinv hstep
    obtain ⟨v, hrun, hvprog, hvresp⟩ := ih t htprog htinv htadm (htin.trans hin)
    obtain ⟨-, htresp⟩ := responses_eq_alone (s := s) (u := { s with inProgress := younger }) (fun _ _ => rfl) hexec
    have halone : younger.reverse.flatMap t.alone = younger.reverse.flatMap s.alone := by
      refine List.flatMap_congr fun q hq => ?_
      have hq := List.mem_reverse.1 hq
      exact State.alone_congr (fun b hb => exec_next_buffer_of_inProgress hexec hq hb) (htadm q (htprog ▸ hq))
    refine ⟨v, (run_succ_of_next hstep _).trans hrun, hvprog, ?_⟩
    rw [hvresp, htresp, halone, List.reverse_cons, List.flatMap_append, List.flatMap_singleton, List.append_assoc]

/-- Settles O57: each step lowers `pending` or is refused, and an admitted request that is alone on its buffer is
answered when it is served. -/
theorem everyRequestIsEventuallyServed : Obligations.EveryRequestIsEventuallyServed := by
  refine ⟨fun s k => run_of_pending_le k s, fun s hinv hadm hin => ?_⟩
  obtain ⟨t, hrun, hprog, hresp⟩ := run_serves_inProgress s.inProgress s rfl hinv hadm hin
  refine ⟨t, s.alone, hrun, hprog, hresp, fun r hr => ?_⟩
  obtain ⟨u, hu⟩ := exec_fetch_of_admitted (hadm r hr)
  obtain ⟨hne, hur⟩ := responses_eq_alone (s := s) (u := { s with inProgress := [] }) (fun _ _ => rfl) hu
  exact ⟨hne, u, (congrArg (exec · _) (State.fetch_congr fun _ _ => rfl)).trans hu, hur⟩

end Sys2Proof.Machine
